-- ==== Sys2Proof/Word.lean ====
section
/-!
DEFINITION. The machine's words: the 8-bit byte of a register or a memory cell, the 16-bit word of `I`, `pc`, a stack
entry and an instruction, and the number types of spec/00_scope.md R4 (16 registers, 16 keys, a 64 by 32 display).
-/

namespace Sys2Proof

/-- 8 bits, unsigned: a general register, a timer, a cell of memory (10_state.md R10, R11; 20_memory.md R40). -/
abbrev Byte := BitVec 8

/-- 16 bits, unsigned: `I`, `pc`, a stack entry, an instruction word (10_state.md R13, R14, R18; 30_encoding.md R60). -/
abbrev Word := BitVec 16

/-- The number of a general register, 0 to 15 (30_encoding.md R61, fields `X` and `Y`). -/
abbrev Reg := Fin 16

/-- The number of a key, 0 to 15 (10_state.md R21). -/
abbrev Key := Fin 16

/-- A column of the framebuffer, 0 to 63 (10_state.md R22). -/
abbrev Column := Fin 64

/-- A row of the framebuffer, 0 to 31 (10_state.md R22). -/
abbrev Row := Fin 32

/-- Register `VF`, the machine's only flag (10_state.md R12). -/
abbrev VF : Reg := 15

end Sys2Proof
end

