-- ==== Sys2Proof/Syntax.lean ====
section
/-!
DEFINITION. The instructions (one constructor per row of spec/opcode_table.json, named after the identifiers of
30_encoding.md R70) and the commands of the core boundary (45_host_interface.md R171).
-/

namespace Sys2Proof

/-- The 34 instructions of 30_encoding.md R65, in the order of its table. `x` and `y` are register numbers, `nn` an
8-bit immediate, `nnn` a 12-bit address, `n` a row count 0 to 15 (R61, R63). -/
inductive Instr where
  /-- `00E0` CLS: 43_display.md R140. -/
  | cls
  /-- `00EE` RET: 40_control_transfer.md R80. -/
  | ret
  /-- `1NNN` JP nnn: 40_control_transfer.md R81. -/
  | jp (nnn : BitVec 12)
  /-- `2NNN` CALL nnn: 40_control_transfer.md R82. -/
  | call (nnn : BitVec 12)
  /-- `3XNN` SE Vx, nn: 40_control_transfer.md R83. -/
  | seImm (x : Reg) (nn : Byte)
  /-- `4XNN` SNE Vx, nn: 40_control_transfer.md R84. -/
  | sneImm (x : Reg) (nn : Byte)
  /-- `5XY0` SE Vx, Vy: 40_control_transfer.md R85. -/
  | seReg (x y : Reg)
  /-- `6XNN` LD Vx, nn: 41_load_alu.md R100. -/
  | ldImm (x : Reg) (nn : Byte)
  /-- `7XNN` ADD Vx, nn: 41_load_alu.md R101. -/
  | addImm (x : Reg) (nn : Byte)
  /-- `8XY0` LD Vx, Vy: 41_load_alu.md R102. -/
  | ldReg (x y : Reg)
  /-- `8XY1` OR Vx, Vy: 41_load_alu.md R103. -/
  | orReg (x y : Reg)
  /-- `8XY2` AND Vx, Vy: 41_load_alu.md R104. -/
  | andReg (x y : Reg)
  /-- `8XY3` XOR Vx, Vy: 41_load_alu.md R105. -/
  | xorReg (x y : Reg)
  /-- `8XY4` ADD Vx, Vy: 41_load_alu.md R106. -/
  | addReg (x y : Reg)
  /-- `8XY5` SUB Vx, Vy: 41_load_alu.md R107. -/
  | sub (x y : Reg)
  /-- `8XY6` SHR Vx: 41_load_alu.md R108. Field `y` is part of the word and names nothing (R62). -/
  | shr (x y : Reg)
  /-- `8XY7` SUBN Vx, Vy: 41_load_alu.md R109. -/
  | subn (x y : Reg)
  /-- `8XYE` SHL Vx: 41_load_alu.md R110. Field `y` is part of the word and names nothing (R62). -/
  | shl (x y : Reg)
  /-- `9XY0` SNE Vx, Vy: 40_control_transfer.md R86. -/
  | sneReg (x y : Reg)
  /-- `ANNN` LD I, nnn: 42_index_memory.md R120. -/
  | ldI (nnn : BitVec 12)
  /-- `BNNN` JP V0, nnn: 40_control_transfer.md R87. -/
  | jpV0 (nnn : BitVec 12)
  /-- `CXNN` RND Vx, nn: 41_load_alu.md R111. -/
  | rnd (x : Reg) (nn : Byte)
  /-- `DXYN` DRW Vx, Vy, n: 43_display.md R141. -/
  | drw (x y : Reg) (n : Fin 16)
  /-- `EX9E` SKP Vx: 44_timers_keypad.md R150. -/
  | skp (x : Reg)
  /-- `EXA1` SKNP Vx: 44_timers_keypad.md R151. -/
  | sknp (x : Reg)
  /-- `FX07` LD Vx, DT: 44_timers_keypad.md R152. -/
  | ldVxDt (x : Reg)
  /-- `FX0A` LD Vx, K: 44_timers_keypad.md R153. -/
  | ldVxK (x : Reg)
  /-- `FX15` LD DT, Vx: 44_timers_keypad.md R154. -/
  | ldDtVx (x : Reg)
  /-- `FX18` LD ST, Vx: 44_timers_keypad.md R155. -/
  | ldStVx (x : Reg)
  /-- `FX1E` ADD I, Vx: 42_index_memory.md R121. -/
  | addI (x : Reg)
  /-- `FX29` LD F, Vx: 42_index_memory.md R122. -/
  | ldF (x : Reg)
  /-- `FX33` LD B, Vx: 42_index_memory.md R123. -/
  | ldB (x : Reg)
  /-- `FX55` LD [I], Vx: 42_index_memory.md R124. -/
  | ldMemVx (x : Reg)
  /-- `FX65` LD Vx, [I]: 42_index_memory.md R125. -/
  | ldVxMem (x : Reg)
  deriving DecidableEq, Repr

/-- The seven commands by which the host drives the core (45_host_interface.md R171). The index of SETKEY and the bytes
of LOAD are as the host gives them: WellFormed.lean states the two preconditions of the contract (R173, R176). -/
inductive Command where
  /-- RESET: 45_host_interface.md R172, 70_reset_and_hazards.md R220. -/
  | reset
  /-- LOAD: 45_host_interface.md R173. -/
  | load (bytes : List Byte)
  /-- STEP with the step's 8-bit random input: 45_host_interface.md R174, 10_state.md R24. -/
  | step (rnd : Byte)
  /-- TICK: 45_host_interface.md R175. -/
  | tick
  /-- SETKEY: 45_host_interface.md R176. -/
  | setKey (index : Nat) (pressed : Bool)
  /-- FB_SNAPSHOT: 45_host_interface.md R177. -/
  | fbSnapshot
  /-- DUMP_MEMORY: 45_host_interface.md R178. -/
  | dumpMemory
  deriving DecidableEq, Repr

end Sys2Proof
end

