-- ==== Sys2Proof/Config.lean ====
section
/-!
DEFINITION. What is fixed for the machine and is not state: the parameters of spec/00_scope.md R4, and the one value the
spec leaves free at every step, the random byte of `CXNN`. `FONT_DATA`, the parameter R4 marks OPEN, is an argument: of
`State.resetWith` and the commands of Machine/HostInterface.lean; its default stands in Machine/Memory.lean.
-/

namespace Sys2Proof

/-- The values of the parameter `FONT_DATA`: any 80 bytes (00_scope.md R4, decision D4: OPEN, an argument the model
takes). -/
abbrev FontData := Vector Byte 80

end Sys2Proof

namespace Sys2Proof.Config

/-- `MEM_SIZE`: 4096 bytes of memory (00_scope.md R4; 20_memory.md R40). -/
def memSize : Nat := 4096

/-- `PROG_BASE`: a program is loaded from 0x200 upward (00_scope.md R4; 45_host_interface.md R173). -/
def progBase : Nat := 0x200

/-- `PROG_MAX_LEN`: the most bytes a LOAD carries, 3584 (00_scope.md R4; 45_host_interface.md R173). -/
def progMaxLen : Nat := 3584

/-- `PC_RESET`: `pc` after RESET, 0x0200 (00_scope.md R4; 10_state.md R26; the spec's decision D2). -/
def pcReset : Word := 0x0200

/-- `STACK_DEPTH`: the return stack holds 16 entries (00_scope.md R4; 10_state.md R18). -/
def stackDepth : Nat := 16

/-- `FONT_BASE`: RESET installs the font table from address 0x000 (00_scope.md R4; 10_state.md R29, decision D3). -/
def fontBase : Nat := 0x000

/-- `FONT_LEN`: the font table is 80 bytes, 16 glyphs of 5 (00_scope.md R4; 10_state.md R29). -/
def fontLen : Nat := 80

/-- The free value of the machine: the random byte that draw number `n` of `CXNN` takes when the host has supplied
none. "The core places no law on `rnd`: any of the 256 values may arrive at any step" (10_state.md R24, decision D15;
93_implementation_defined.md U3): no body, so nothing can be proved of its value. Log entry 1. -/
opaque freeRnd : Nat → Byte

end Sys2Proof.Config
end

