-- ==== Sys2Proof/Machine/State.lean ====
section
/-!
DEFINITION. The state of the core (spec/10_state.md R10) as plain data, the reasons a step can stop
(spec/60_exceptions.md R190), what a command answers (spec/45_host_interface.md R171, R174), and the state after RESET
(spec/10_state.md R26).
-/

namespace Sys2Proof.Machine

/-- Memory as the list of the bytes that differ from what RESET leaves, addresses rising: `Memory.wf` of
Machine/Memory.lean states the form (20_memory.md R40). -/
abbrev Memory := List Host.Cell

/-- The framebuffer, `FB[x][y]`: 64 columns of 32 one-bit cells (10_state.md R22). -/
abbrev Grid := Vector (Vector Bool 32) 64

/-- The whole state of the core (10_state.md R10), and two fields of the model's own, `rndIn` and `draws`, by which the
random input of a step (R24) reaches a step that is a function of the state (log entry 1). -/
structure State where
  /-- `V[0..15]` (R11); `V[15]` is `VF` (R12). -/
  v : Vector Byte 16
  /-- `I`, all 16 bits kept (R13). -/
  i : Word
  /-- `pc`, all 16 bits kept (R14, R16). -/
  pc : Word
  /-- `SP`, 0 to 16: the number of return addresses on the stack (R17). -/
  sp : Fin 17
  /-- `STACK[0..15]`, entries of 16 bits (R18). -/
  stack : Vector Word 16
  /-- `DT`, the delay timer (R19). -/
  dt : Byte
  /-- `ST`, the sound timer (R20). -/
  st : Byte
  /-- `KEY[0..15]`, true where the key is pressed (R21). -/
  key : Vector Bool 16
  /-- `FB[0..63][0..31]` (R22). -/
  fb : Grid
  /-- `MEM[0..4095]` (R23). -/
  mem : Memory
  /-- The model's own: random bytes the host has supplied for the coming `CXNN`, first first (R24, R171). -/
  rndIn : List Byte
  /-- The model's own: how many random bytes have been drawn that the host had not supplied. -/
  draws : Nat
  deriving DecidableEq, Repr

/-- The three conditions of 60_exceptions.md R190, with the `info` each records. Safe: the spec's own conditions, at
the point the spec raises them, and nothing else faults (R194). -/
inductive Fault where
  /-- Raised by the step that fetches a word of no pattern: the address of the word and the word (R191). Safe. -/
  | unknownOpcode (pc op : Word)
  /-- Raised by `2NNN` when `SP = 16`: the address of the `2NNN` (R192). Safe. -/
  | stackOverflow (pc : Word)
  /-- Raised by `00EE` when `SP = 0`: the address of the `00EE` (R193). Safe. -/
  | stackUnderflow (pc : Word)
  deriving DecidableEq, Repr

/-- What the model gives no meaning. -/
inductive Refusal where
  /-- An instruction with no meaning yet; every instruction of this model has one. Safe. -/
  | notModelled (mnemonic : String)
  /-- A command other than RESET before the first RESET (10_state.md R27, decision D17). Safe. -/
  | beforeReset
  /-- A LOAD of more than 3584 bytes, outside the contract (45_host_interface.md R173, decision D18). Safe. -/
  | loadTooLong
  /-- A SETKEY of an index above 15, outside the contract (45_host_interface.md R176, decision D18). Safe. -/
  | keyIndexOutOfRange
  deriving DecidableEq, Repr

/-- The outcome of a STEP: `Ok`, `Wait` or `Fault(c, info)` (45_host_interface.md R174). -/
inductive StepResult where
  | ok
  | wait
  | fault (f : Fault)
  deriving DecidableEq, Repr

/-- What a command returns to the host (45_host_interface.md R171, column `result`). -/
inductive Response where
  /-- RESET, LOAD, TICK, SETKEY: no result. -/
  | done
  /-- STEP: its outcome and the `redraw` output (R174). -/
  | stepped (result : StepResult) (redraw : Bool)
  /-- FB_SNAPSHOT: the cells, as `(x, y)` to `FB[x][y]` (R177). -/
  | snapshot (cells : Grid)
  /-- DUMP_MEMORY: the pairs `(a, MEM[a])` (R178). -/
  | dump (cells : List Host.Cell)
  deriving DecidableEq, Repr

/-- The state after RESET with the default `FONT_DATA`, each field at the value of 10_state.md R26; an unlisted byte of
memory reads as RESET then leaves it (Machine/Memory.lean), so memory lists nothing. For any other value of the parameter
see `State.resetWith` (Machine/HostInterface.lean). -/
def State.reset : State where
  v := Vector.replicate 16 0
  i := 0
  pc := Config.pcReset
  sp := 0
  stack := Vector.replicate 16 0
  dt := 0
  st := 0
  key := Vector.replicate 16 false
  fb := Vector.replicate 64 (Vector.replicate 32 false)
  mem := []
  rndIn := []
  draws := 0

end Sys2Proof.Machine
end

