-- ==== Sys2Proof/Machine/Memory.lean ====
section
/-!
DEFINITION. `MEM` as a list in one canonical form (spec/20_memory.md R40, R46): what an unlisted address reads as, reading
and writing one byte at an address of the 4096, and the form itself. The masking of an address is in Machine/Ops.lean.
-/

namespace Sys2Proof.Machine

/-- The default of the parameter `FONT_DATA`: the 80 bytes of 10_state.md R29 (decision D4). Log entry 2. -/
def fontData : List Byte :=
  [0xF0, 0x90, 0x90, 0x90, 0xF0] ++ [0x20, 0x60, 0x20, 0x20, 0x70] ++
  [0xF0, 0x10, 0xF0, 0x80, 0xF0] ++ [0xF0, 0x10, 0xF0, 0x10, 0xF0] ++
  [0x90, 0x90, 0xF0, 0x10, 0x10] ++ [0xF0, 0x80, 0xF0, 0x10, 0xF0] ++
  [0xF0, 0x80, 0xF0, 0x90, 0xF0] ++ [0xF0, 0x10, 0x20, 0x40, 0x40] ++
  [0xF0, 0x90, 0xF0, 0x90, 0xF0] ++ [0xF0, 0x90, 0xF0, 0x10, 0xF0] ++
  [0xF0, 0x90, 0xF0, 0x90, 0x90] ++ [0xE0, 0x90, 0xE0, 0x90, 0xE0] ++
  [0xF0, 0x80, 0x80, 0x80, 0xF0] ++ [0xE0, 0x90, 0x90, 0x90, 0xE0] ++
  [0xF0, 0x80, 0xF0, 0x80, 0xF0] ++ [0xF0, 0x80, 0xF0, 0x80, 0x80]

/-- The same as a value of the parameter. -/
def defaultFont : FontData := ⟨fontData.toArray, rfl⟩

/-- What an address that memory does not list reads as: the byte RESET leaves there with the default `FONT_DATA`, the
font table from 0x000 and zero from 0x050 (10_state.md R26, R29; 20_memory.md R46). This fixes how a memory is written
down, not what is in it: with another font, `State.resetWith` lists the bytes that differ. -/
def resetByte (a : Nat) : Byte := fontData.getD a 0

/-- The byte at an address. -/
def Memory.get : Memory → Nat → Byte
  | [], a => resetByte a
  | (b, w) :: rest, a => if a = b then w else if a < b then resetByte a else Memory.get rest a

/-- The cell `(a, v)` before `rest`, left out where `v` is what `a` reads as unlisted. -/
def Memory.cons (a : Nat) (v : Byte) (rest : Memory) : Memory :=
  if v = resetByte a then rest else (a, v) :: rest

/-- Memory with `v` at an address, in the canonical form. -/
def Memory.set : Memory → Nat → Byte → Memory
  | [], a, v => Memory.cons a v []
  | (b, w) :: rest, a, v =>
    if a = b then Memory.cons a v rest
    else if a < b then Memory.cons a v ((b, w) :: rest)
    else (b, w) :: Memory.set rest a v

/-- The canonical form from address `lo` on: addresses strictly rising from `lo`, each below 4096, no entry equal to
what an unlisted address reads as. -/
def Memory.wfFrom : Nat → Memory → Bool
  | _, [] => true
  | lo, (a, v) :: rest =>
    decide (lo ≤ a) && decide (a < Config.memSize) && decide (v ≠ resetByte a) && Memory.wfFrom (a + 1) rest

/-- Memory is in its one canonical form. -/
def Memory.wf (m : Memory) : Bool := Memory.wfFrom 0 m

end Sys2Proof.Machine
end

