-- ==== Sys2Proof/Machine/Ops.lean ====
section
/-!
DEFINITION. The named operations over registers, memory, stack, framebuffer and `pc` from which every meaning is built,
and the one way a condition is raised (spec/60_exceptions.md R195).
-/

namespace Sys2Proof.Machine

/-- What a step or a meaning answers. -/
abbrev Result := Host.Outcome State Fault Refusal

/-! ### Registers (00_scope.md R6: the writes of the pseudocode) -/

/-- `V[r]`. Every register is an ordinary one, `V0` and `VF` included (10_state.md R11). -/
def State.reg (s : State) (r : Reg) : Byte := s.v[r.val]

/-- `V[r] <- b`. -/
def State.setReg (s : State) (r : Reg) (b : Byte) : State := { s with v := s.v.set r.val b }

/-- `I <- w`: 16 bits, never masked when written (10_state.md R13). -/
def State.setI (s : State) (w : Word) : State := { s with i := w }

/-- `pc <- w`: 16 bits, never masked when written (10_state.md R16). -/
def State.setPc (s : State) (w : Word) : State := { s with pc := w }

/-- `DT <- b` (10_state.md R19). -/
def State.setDt (s : State) (b : Byte) : State := { s with dt := b }

/-- `ST <- b` (10_state.md R20). -/
def State.setSt (s : State) (b : Byte) : State := { s with st := b }

/-- `FB` replaced as a whole (10_state.md R22). -/
def State.setFb (s : State) (g : Grid) : State := { s with fb := g }

/-- `MEM` replaced as a whole. -/
def State.setMem (s : State) (m : Memory) : State := { s with mem := m }

/-- All the general registers replaced. -/
def State.setRegs (s : State) (v : Vector Byte 16) : State := { s with v := v }

/-! ### The advance of `pc` (10_state.md R14 to R16) -/

/-- `pc <- pc + 2`, modulo 2^16. -/
def State.advance (s : State) : State := s.setPc (s.pc + 2)

/-- A skip: `pc <- pc + 4` if the condition holds, else `pc <- pc + 2` (40_control_transfer.md section 3). -/
def State.skipIf (s : State) (c : Bool) : State := s.setPc (if c then s.pc + 4 else s.pc + 2)

/-! ### Memory (20_memory.md R41) -/

/-- `addr & 0x0FFF`: the masking of every address at the moment of access. -/
def maskAddr (addr : Nat) : Nat := addr &&& 0x0FFF

/-- `MemRead(addr, 1)` on a memory. -/
def Memory.read (m : Memory) (addr : Nat) : Byte := m.get (maskAddr addr)

/-- `MemWrite(addr, 1, v)` on a memory. -/
def Memory.write (m : Memory) (addr : Nat) (v : Byte) : Memory := m.set (maskAddr addr) v

/-- `MemRead(addr, 1)`. -/
def State.memRead (s : State) (addr : Nat) : Byte := s.mem.read addr

/-- Bytes written at `addr`, `addr + 1`, ... in ascending order, each address masked by itself (R41, R53). -/
def Memory.storeBytes : Memory → Nat → List Byte → Memory
  | m, _, [] => m
  | m, addr, b :: bs => Memory.storeBytes (m.write addr b) (addr + 1) bs

/-- The `n` bytes at `addr`, `addr + 1`, ... in ascending order, each address masked by itself (R41, R53). -/
def Memory.loadBytes (m : Memory) : Nat → Nat → List Byte
  | _, 0 => []
  | addr, n + 1 => m.read addr :: m.loadBytes (addr + 1) n

/-- The instruction word at `pc`: the bytes at `pc` and `pc + 1`, each address masked, high byte first; `pc` is not
changed, and no parity of `pc` is special (30_encoding.md R60; 20_memory.md R42, R43). -/
def State.fetchWord (s : State) : Word := wordOfBytes (s.memRead s.pc.toNat) (s.memRead (s.pc.toNat + 1))

/-- The state with the word `op` stored at `pc` and `pc + 1`, where the next fetch reads it. -/
def State.placeWord (s : State) (op : Word) : State := s.setMem (s.mem.storeBytes s.pc.toNat (bytesOfWord op))

/-! ### Runs of registers (42_index_memory.md R124, R125) -/

/-- `V[0..x]`, inclusive of `x`. -/
def State.regsUpTo (s : State) (x : Reg) : List Byte := s.v.toList.take (x.val + 1)

/-- Bytes written into registers `k`, `k + 1`, ... in ascending order. -/
def writeRegsFrom : Vector Byte 16 → Nat → List Byte → Vector Byte 16
  | v, _, [] => v
  | v, k, b :: bs => writeRegsFrom (v.setIfInBounds k b) (k + 1) bs

/-! ### The return stack (10_state.md R17, R18) -/

/-- `STACK[SP] <- w; SP <- SP + 1`, or none where `SP = 16`. -/
def State.push (s : State) (w : Word) : Option State :=
  if h : s.sp.val < 16 then
    some { s with stack := s.stack.set s.sp.val w, sp := ⟨s.sp.val + 1, by omega⟩ }
  else none

/-- `SP <- SP - 1`, and the entry then at `STACK[SP]`, which stays where it is; none where `SP = 0`. -/
def State.pop (s : State) : Option (Word × State) :=
  if h : s.sp.val = 0 then none
  else some (s.stack[s.sp.val - 1]'(by omega), { s with sp := ⟨s.sp.val - 1, by omega⟩ })

/-! ### Cells of the framebuffer (10_state.md R22) -/

/-- `FB[x][y]`. -/
def Grid.cell (g : Grid) (x : Column) (y : Row) : Bool := g[x.val][y.val]

/-- `FB[x][y] <- FB[x][y] ^ 1`. -/
def Grid.toggle (g : Grid) (x : Column) (y : Row) : Grid :=
  g.set x.val (g[x.val].set y.val (!g[x.val][y.val]))

/-- Every cell 0. -/
def Grid.clear : Grid := Vector.replicate 64 (Vector.replicate 32 false)

/-! ### The random input (10_state.md R24; log entry 1) -/

/-- The random byte of this step: the first the host has supplied; where it has supplied none, a free value. -/
def State.nextRnd (s : State) : Byte :=
  match s.rndIn with
  | b :: _ => b
  | [] => Config.freeRnd s.draws

/-- The state after its random byte is used: a supplied byte is used up, a free one counted. -/
def State.drawRnd (s : State) : State :=
  match s.rndIn with
  | _ :: rest => { s with rndIn := rest }
  | [] => { s with draws := s.draws + 1 }

/-! ### Conditions (60_exceptions.md R195) -/

/-- `raise <Condition>(info)`, the one way a condition is taken: the step ends with it and the machine does nothing else.
"Nothing is saved anywhere, no mode changes, no mask changes, no stack is switched, and control goes nowhere"; there is
no return from it (R197), and the state stays what it was, which is how Machine/HostInterface.lean hands it back to the
host. -/
def raiseFault (f : Fault) : Result := .fault f

end Sys2Proof.Machine
end

