-- ==== Sys2Proof/Machine/Operands.lean ====
section
/-!
DEFINITION. The operand forms (spec/30_encoding.md R63; spec/42_index_memory.md R126): immediates zero-extended, the key a
register names, the decimal digits of a byte, and the bytes a sprite is read from.
-/

namespace Sys2Proof.Machine

/-- `zext_16(NNN)` (30_encoding.md R63). -/
def addrOperand (nnn : BitVec 12) : Word := nnn.setWidth 16

/-- `zext_16(V[r])`. -/
def byteOperand (b : Byte) : Word := b.setWidth 16

/-- The key that a register value names: `V[X] & 0x0F` (44_timers_keypad.md R156, decision D12). -/
def keyOperand (b : Byte) : Key :=
  ⟨(b &&& 0x0F).toNat, by
    rw [BitVec.toNat_and]
    exact Nat.lt_of_le_of_lt Nat.and_le_right (by decide)⟩

/-- `KEY[k]`. -/
def State.keyPressed (s : State) (k : Key) : Bool := s.key[k.val]

/-- The keys in the order `FX0A` scans them (44_timers_keypad.md R153, decision D13: ascending). -/
def keyScan : List Key := [0, 1, 2, 3, 4, 5, 6, 7, 8, 9, 10, 11, 12, 13, 14, 15]

/-- "the least k in 0..15 with KEY[k] = 1", none where no key is pressed (44_timers_keypad.md R153). -/
def State.firstKey (s : State) : Option Key := keyScan.find? s.keyPressed

/-- Hundreds, tens and units of a byte, each a byte 0 to 9 (42_index_memory.md R123). -/
def decimalDigits (b : Byte) : List Byte :=
  [BitVec.ofNat 8 (b.toNat / 100), BitVec.ofNat 8 (b.toNat / 10 % 10), BitVec.ofNat 8 (b.toNat % 10)]

/-- The addresses of `FX33`, `FX55`, `FX65` and `DXYN` run from the 16-bit value of `I`: effective address
`(I + k) & 0x0FFF` (42_index_memory.md R126), the masking being the memory operations'. -/
def State.indexAddr (s : State) : Nat := s.i.toNat

/-- The `n` bytes at `I`, `I + 1`, ... (20_memory.md R45, rows `DXYN` and `FX65`). -/
def State.bytesAtIndex (s : State) (n : Nat) : List Byte := s.mem.loadBytes s.indexAddr n

end Sys2Proof.Machine
end

