-- ==== Sys2Proof/Machine/Control.lean ====
section
/-!
DEFINITION. Control transfer: return, jumps, call, skips on registers (spec/40_control_transfer.md).
-/

namespace Sys2Proof.Machine

/-- `00EE` RET: R80; StackUnderflow R193. -/
def execRet (s : State) : Result :=
  match s.pop with
  | none => raiseFault (.stackUnderflow s.pc)
  | some (a, t) => .next (t.setPc (a + 2))

/-- `1NNN` JP: R81. -/
def execJp (nnn : BitVec 12) (s : State) : Result := .next (s.setPc (addrOperand nnn))

/-- `2NNN` CALL: R82; StackOverflow R192. The pushed value is the address of the call itself (10_state.md R14). -/
def execCall (nnn : BitVec 12) (s : State) : Result :=
  match s.push s.pc with
  | none => raiseFault (.stackOverflow s.pc)
  | some t => .next (t.setPc (addrOperand nnn))

/-- `3XNN` SE Vx, nn: R83. -/
def execSeImm (x : Reg) (nn : Byte) (s : State) : Result := .next (s.skipIf (s.reg x == nn))

/-- `4XNN` SNE Vx, nn: R84. -/
def execSneImm (x : Reg) (nn : Byte) (s : State) : Result := .next (s.skipIf (s.reg x != nn))

/-- `5XY0` SE Vx, Vy: R85. -/
def execSeReg (x y : Reg) (s : State) : Result := .next (s.skipIf (s.reg x == s.reg y))

/-- `9XY0` SNE Vx, Vy: R86. -/
def execSneReg (x y : Reg) (s : State) : Result := .next (s.skipIf (s.reg x != s.reg y))

/-- `BNNN` JP V0, nnn: R87; always register 0, the sum not masked. -/
def execJpV0 (nnn : BitVec 12) (s : State) : Result :=
  .next (s.setPc (addrOperand nnn + byteOperand (s.reg 0)))

end Sys2Proof.Machine
end

