-- ==== Sys2Proof/Machine/Flags.lean ====
section
/-!
DEFINITION. The values written to `VF`, the machine's only flag (spec/10_state.md R12), and the order of a flag-writing
instruction (spec/00_scope.md R7).
-/

namespace Sys2Proof.Machine

/-- "Each of these writes the whole 8-bit register with 0 or 1" (10_state.md R12). -/
def flagByte (c : Bool) : Byte := if c then 1 else 0

/-- Carry of `8XY4`: 1 if `a + b > 255`, the sum an unbounded integer (41_load_alu.md R106). -/
def carryFlag (a b : Byte) : Byte := flagByte (decide (a.toNat + b.toNat > 255))

/-- Not-borrow of `a - b`: 0 if `b > a`, else 1 (41_load_alu.md R107, R109). -/
def notBorrowFlag (a b : Byte) : Byte := flagByte (!decide (b.toNat > a.toNat))

/-- The bit `8XY6` shifts out: `a & 1` (41_load_alu.md R108). -/
def shiftRightFlag (a : Byte) : Byte := a &&& 1

/-- The bit `8XYE` shifts out: `(a >> 7) & 1` (41_load_alu.md R110). -/
def shiftLeftFlag (a : Byte) : Byte := (a >>> 7) &&& 1

/-- Range flag of `FX1E`: 1 if `I + V[X] > 0xFFF`, `I` the full 16-bit value (42_index_memory.md R121, decision D6). -/
def indexRangeFlag (i : Word) (b : Byte) : Byte := flagByte (decide (i.toNat + b.toNat > 0xFFF))

/-- A flag-writing instruction of family 8: `VF` first, then `V[x]` from the registers as they then are, then the
advance (00_scope.md R7, decision D9; 41_load_alu.md R106 to R110). -/
def State.flagThenReg (s : State) (flag : Byte) (x : Reg) (value : State → Byte) : State :=
  let f := s.setReg VF flag
  (f.setReg x (value f)).advance

end Sys2Proof.Machine
end

