-- ==== Sys2Proof/Machine/Display.lean ====
section
/-!
DEFINITION. Display: clear screen and sprite draw (spec/43_display.md).
-/

namespace Sys2Proof.Machine

/-- A framebuffer being drawn on, and whether a cell has gone from 1 to 0. -/
abbrev Canvas := Grid × Bool

/-- `p mod 64` (R141). -/
def columnOf (p : Nat) : Column := ⟨p % 64, Nat.mod_lt p (by decide)⟩

/-- `p mod 32` (R141). -/
def rowOf (p : Nat) : Row := ⟨p % 32, Nat.mod_lt p (by decide)⟩

/-- One set bit of a sprite: "if FB[px][py] = 1 then VF <- 1; FB[px][py] <- FB[px][py] ^ 1", with the pixel's
coordinates reduced modulo 64 and 32 (R141). -/
def plotPixel (px py : Nat) (c : Canvas) : Canvas :=
  (c.1.toggle (columnOf px) (rowOf py), c.2 || c.1.cell (columnOf px) (rowOf py))

/-- One row of a sprite at row `y`: bit `7 - c` of the byte is the pixel at column `x0 + c` (R141; R142 (b)). -/
def drawRow (b : Byte) (x0 y : Nat) (canvas : Canvas) : Canvas :=
  [0, 1, 2, 3, 4, 5, 6, 7].foldl (fun acc c => if b.getLsbD (7 - c) then plotPixel (x0 + c) y acc else acc) canvas

/-- The rows of a sprite, the first at row `y0` (R141). -/
def drawRows : List Byte → Nat → Nat → Canvas → Canvas
  | [], _, _, canvas => canvas
  | b :: bs, x0, y0, canvas => drawRows bs x0 (y0 + 1) (drawRow b x0 y0 canvas)

/-- `00E0` CLS: R140. Its `redraw` output is in Machine/HostInterface.lean. -/
def execCls (s : State) : Result := .next (s.setFb Grid.clear).advance

/-- `DXYN` DRW Vx, Vy, n: R141; the operands are read before `VF` is written (R142 (c)), and `VF` is written always. Its
`redraw` output is in Machine/HostInterface.lean. -/
def execDrw (x y : Reg) (n : Fin 16) (s : State) : Result :=
  let drawn := drawRows (s.bytesAtIndex n.val) (s.reg x).toNat (s.reg y).toNat (s.fb, false)
  .next ((s.setReg VF (flagByte drawn.2)).setFb drawn.1).advance

end Sys2Proof.Machine
end

