-- ==== Sys2Proof/Machine/IndexMemory.lean ====
section
/-!
DEFINITION. Index register and memory transfer (spec/42_index_memory.md).
-/

namespace Sys2Proof.Machine

/-- `ANNN` LD I, nnn: R120. -/
def execLdI (nnn : BitVec 12) (s : State) : Result := .next (s.setI (addrOperand nnn)).advance

/-- `FX1E` ADD I, Vx: R121; `VF` first, then `I` from the `V[x]` that then stands (00_scope.md R7). -/
def execAddI (x : Reg) (s : State) : Result :=
  let f := s.setReg VF (indexRangeFlag s.i (s.reg x))
  .next (f.setI (f.i + byteOperand (f.reg x))).advance

/-- `FX29` LD F, Vx: R122; the whole 8-bit value, times 5. -/
def execLdF (x : Reg) (s : State) : Result := .next (s.setI (byteOperand (s.reg x) * 5)).advance

/-- `FX33` LD B, Vx: R123; `I` unchanged. -/
def execLdB (x : Reg) (s : State) : Result :=
  .next (s.setMem (s.mem.storeBytes s.indexAddr (decimalDigits (s.reg x)))).advance

/-- `I <- (I + X + 1) mod 2^16`, the update after the loop of `FX55` and `FX65` (R124, R125). -/
def State.indexPast (s : State) (x : Reg) : Word := s.i + BitVec.ofNat 16 (x.val + 1)

/-- `FX55` LD [I], Vx: R124. -/
def execLdMemVx (x : Reg) (s : State) : Result :=
  .next ((s.setMem (s.mem.storeBytes s.indexAddr (s.regsUpTo x))).setI (s.indexPast x)).advance

/-- `FX65` LD Vx, [I]: R125; memory is not written. -/
def execLdVxMem (x : Reg) (s : State) : Result :=
  .next ((s.setRegs (writeRegsFrom s.v 0 (s.bytesAtIndex (x.val + 1)))).setI (s.indexPast x)).advance

end Sys2Proof.Machine
end

