-- ==== Sys2Proof/Machine/LoadAlu.lean ====
section
/-!
DEFINITION. Register load, arithmetic, logic, shift and random (spec/41_load_alu.md).
-/

namespace Sys2Proof.Machine

/-- `6XNN` LD Vx, nn: R100. -/
def execLdImm (x : Reg) (nn : Byte) (s : State) : Result := .next (s.setReg x nn).advance

/-- `7XNN` ADD Vx, nn: R101; no flag. -/
def execAddImm (x : Reg) (nn : Byte) (s : State) : Result := .next (s.setReg x (s.reg x + nn)).advance

/-- `8XY0` LD Vx, Vy: R102. -/
def execLdReg (x y : Reg) (s : State) : Result := .next (s.setReg x (s.reg y)).advance

/-- `8XY1` OR Vx, Vy: R103; no flag. -/
def execOrReg (x y : Reg) (s : State) : Result := .next (s.setReg x (s.reg x ||| s.reg y)).advance

/-- `8XY2` AND Vx, Vy: R104; no flag. -/
def execAndReg (x y : Reg) (s : State) : Result := .next (s.setReg x (s.reg x &&& s.reg y)).advance

/-- `8XY3` XOR Vx, Vy: R105; no flag. -/
def execXorReg (x y : Reg) (s : State) : Result := .next (s.setReg x (s.reg x ^^^ s.reg y)).advance

/-- `8XY4` ADD Vx, Vy: R106, R113. -/
def execAddReg (x y : Reg) (s : State) : Result :=
  .next (s.flagThenReg (carryFlag (s.reg x) (s.reg y)) x fun f => f.reg x + f.reg y)

/-- `8XY5` SUB Vx, Vy: R107, R113. -/
def execSub (x y : Reg) (s : State) : Result :=
  .next (s.flagThenReg (notBorrowFlag (s.reg x) (s.reg y)) x fun f => f.reg x - f.reg y)

/-- `8XY6` SHR Vx: R108, R113; `V[x]` in place, field `Y` not used. -/
def execShr (x : Reg) (s : State) : Result :=
  .next (s.flagThenReg (shiftRightFlag (s.reg x)) x fun f => f.reg x >>> 1)

/-- `8XY7` SUBN Vx, Vy: R109, R113. -/
def execSubn (x y : Reg) (s : State) : Result :=
  .next (s.flagThenReg (notBorrowFlag (s.reg y) (s.reg x)) x fun f => f.reg y - f.reg x)

/-- `8XYE` SHL Vx: R110, R113; `V[x]` in place, field `Y` not used. -/
def execShl (x : Reg) (s : State) : Result :=
  .next (s.flagThenReg (shiftLeftFlag (s.reg x)) x fun f => f.reg x <<< 1)

/-- `CXNN` RND Vx, nn: R111, with the step's random byte (log entry 1). -/
def execRnd (x : Reg) (nn : Byte) (s : State) : Result := .next (s.drawRnd.setReg x (s.nextRnd &&& nn)).advance

end Sys2Proof.Machine
end

