-- ==== Sys2Proof/Machine/TimersKeypad.lean ====
section
/-!
DEFINITION. Timer and keypad instructions (spec/44_timers_keypad.md).
-/

namespace Sys2Proof.Machine

/-- `EX9E` SKP Vx: R150, R156. -/
def execSkp (x : Reg) (s : State) : Result := .next (s.skipIf (s.keyPressed (keyOperand (s.reg x))))

/-- `EXA1` SKNP Vx: R151, R156. -/
def execSknp (x : Reg) (s : State) : Result := .next (s.skipIf (!s.keyPressed (keyOperand (s.reg x))))

/-- `FX07` LD Vx, DT: R152. -/
def execLdVxDt (x : Reg) (s : State) : Result := .next (s.setReg x s.dt).advance

/-- `FX0A` LD Vx, K: R153. With no key pressed the outcome is `Wait`: no state changes and `pc` stays, so the next step
runs the same instruction; that the outcome is `Wait` the host is told by Machine/HostInterface.lean. -/
def execLdVxK (x : Reg) (s : State) : Result :=
  match s.firstKey with
  | none => .next s
  | some k => .next (s.setReg x (BitVec.ofNat 8 k.val)).advance

/-- `FX15` LD DT, Vx: R154. -/
def execLdDtVx (x : Reg) (s : State) : Result := .next (s.setDt (s.reg x)).advance

/-- `FX18` LD ST, Vx: R155. -/
def execLdStVx (x : Reg) (s : State) : Result := .next (s.setSt (s.reg x)).advance

end Sys2Proof.Machine
end

