-- ==== Sys2Proof/Machine/Step.lean ====
section
/-!
DEFINITION. One STEP (spec/45_host_interface.md R174): fetch, decode, the effects of the instruction.
-/

namespace Sys2Proof.Machine

/-- "the fetch, the field extraction, the decode, and the effects of the decoded instruction by its own rule, including
its change of `pc`" (R174); a word of no pattern raises UnknownOpcode after the fetch and before any effect
(60_exceptions.md R191). -/
def step (s : State) : Host.Outcome State Fault Refusal :=
  match decodeWord s.fetchWord with
  | some i => exec i s
  | none => raiseFault (.unknownOpcode s.pc s.fetchWord)

/-- The state with the instruction word of an opcode-table row stored where the next step fetches (log entry 3). -/
def State.withFetchWord (s : State) (nbits w : Nat) : State := s.placeWord (tableWord nbits w)

end Sys2Proof.Machine
end

