-- ==== Sys2Proof/WellFormed.lean ====
section
/-!
DEFINITION. Which terms of the syntax are well formed.

Of the instructions every term is: an operand's type is exactly the range its field has in the word (30_encoding.md R61:
`X`, `Y`, `N` four bits, `NN` eight, `NNN` twelve), so no term carries a register 16 or an immediate that no word
encodes, and there is no check to make. Of the commands two carry a precondition on the host
(45_host_interface.md R173, R176; decision D18): these are the two checks.
-/

namespace Sys2Proof

/-- "a byte sequence of length `len`, `0 <= len <= 3584`" (45_host_interface.md R171, R173). -/
def loadFits (bytes : List Byte) : Bool := decide (bytes.length ≤ Config.progMaxLen)

/-- "index 0..15" (45_host_interface.md R171, R176). -/
def keyIndexInRange (index : Nat) : Bool := decide (index < 16)

/-- A command inside the contract of 45_host_interface.md R171. -/
def Command.wellFormed : Command → Bool
  | .load bytes => loadFits bytes
  | .setKey index _ => keyIndexInRange index
  | .reset | .step _ | .tick | .fbSnapshot | .dumpMemory => true

end Sys2Proof
end

