-- ==== Sys2Proof/Machine/HostInterface.lean ====
section
/-!
DEFINITION. The seven commands by which the host drives the core (spec/45_host_interface.md): what each changes, what it
returns, the outcome and the `redraw` output of a STEP, and a host's whole schedule of commands.
-/

namespace Sys2Proof.Machine

/-! ### The outputs of a step (R174; 43_display.md R143) -/

/-- `redraw` of an instruction that completed: 1 for `00E0` and `DXYN` and 0 for every other (43_display.md R143,
decision D11). -/
def redrawsOnOk : Instr → Bool
  | .cls | .drw _ _ _ => true
  | .ret | .jp _ | .call _ | .seImm _ _ | .sneImm _ _ | .seReg _ _ | .ldImm _ _ | .addImm _ _ | .ldReg _ _ | .orReg _ _
  | .andReg _ _ | .xorReg _ _ | .addReg _ _ | .sub _ _ | .shr _ _ | .subn _ _ | .shl _ _ | .sneReg _ _ | .ldI _
  | .jpV0 _ | .rnd _ _ | .skp _ | .sknp _ | .ldVxDt _ | .ldVxK _ | .ldDtVx _ | .ldStVx _ | .addI _ | .ldF _ | .ldB _
  | .ldMemVx _ | .ldVxMem _ => false

/-- The outcome is `Wait`: "the instruction is `FX0A` and no key is pressed" (R174). -/
def waitsFor : Instr → State → Bool
  | .ldVxK _, s => s.firstKey.isNone
  | .cls, _ | .drw _ _ _, _ | .ret, _ | .jp _, _ | .call _, _ | .seImm _ _, _ | .sneImm _ _, _ | .seReg _ _, _
  | .ldImm _ _, _ | .addImm _ _, _ | .ldReg _ _, _ | .orReg _ _, _ | .andReg _ _, _ | .xorReg _ _, _ | .addReg _ _, _
  | .sub _ _, _ | .shr _ _, _ | .subn _ _, _ | .shl _ _, _ | .sneReg _ _, _ | .ldI _, _ | .jpV0 _, _ | .rnd _ _, _
  | .skp _, _ | .sknp _, _ | .ldVxDt _, _ | .ldDtVx _, _ | .ldStVx _, _ | .addI _, _ | .ldF _, _ | .ldB _, _
  | .ldMemVx _, _ | .ldVxMem _, _ => false

/-- What a step reports where it meets no stack condition: its outcome and its `redraw` output (R174; 43_display.md R143:
0 "including a step that ended in `Wait` or in a fault"). -/
def stepReport (s : State) : Response :=
  match decodeWord s.fetchWord with
  | some i => if waitsFor i s then .stepped .wait false else .stepped .ok (redrawsOnOk i)
  | none => .stepped (.fault (.unknownOpcode s.pc s.fetchWord)) false

/-- The numeric code of a condition (60_exceptions.md R190; 0 is none). -/
def faultCode : Fault → Nat
  | .unknownOpcode _ _ => 1
  | .stackOverflow _ => 2
  | .stackUnderflow _ => 3

/-- The `info` of a condition: the address of the instruction, and for UnknownOpcode the word (60_exceptions.md R190). -/
def faultInfo : Fault → Word × Option Word
  | .unknownOpcode pc op => (pc, some op)
  | .stackOverflow pc => (pc, none)
  | .stackUnderflow pc => (pc, none)

/-! ### What each command changes (10_state.md R28) -/

/-- The state after RESET, for any value of the parameter `FONT_DATA`: every register and every other byte of memory as
10_state.md R26 says, and "`MEM[FONT_BASE + k]` for `0 <= k < 80`" is `FONT_DATA[k]` (R26, R29; 70_reset_and_hazards.md
R220; decision D4). With the default bytes it is `State.reset`. -/
def State.resetWith (font : FontData) : State :=
  State.reset.setMem (State.reset.mem.storeBytes Config.fontBase font.toList)

/-- LOAD: "for i = 0 .. len-1: MEM[0x200 + i] <- bytes[i]" and nothing else (R173). -/
def State.load (s : State) (bytes : List Byte) : State := s.setMem (s.mem.storeBytes Config.progBase bytes)

/-- A timer one TICK later: less 1, floored at 0 (R175; 10_state.md R19). -/
def tickTimer (t : Byte) : Byte := if t.toNat > 0 then t - 1 else t

/-- TICK: each timer by itself, and nothing else (R175). -/
def State.tick (s : State) : State := (s.setDt (tickTimer s.dt)).setSt (tickTimer s.st)

/-- SETKEY: "KEY[index] <- pressed", the other fifteen flags unchanged (R176). -/
def State.setKey (s : State) (k : Key) (pressed : Bool) : State := { s with key := s.key.set k.val pressed }

/-- FB_SNAPSHOT: the cells as they stand (R177). -/
def State.snapshot (s : State) : Grid := s.fb

/-- DUMP_MEMORY: `(a, MEM[a])` for `a = 0x000 .. 0xFFF` in ascending order (R178). -/
def State.dump (s : State) : List Host.Cell := (List.range Config.memSize).map fun a => (a, s.memRead a)

/-- The value of `ST` as the host sees it between commands (10_state.md R20; 45_host_interface.md R171). -/
def State.soundOutput (s : State) : Byte := s.st

/-- The state as STEP's argument `rnd` finds it: `rnd` is the byte a `CXNN` of this step uses (10_state.md R24). -/
def State.withRnd (s : State) (rnd : Byte) : State := { s with rndIn := [rnd] }

/-- The state after a STEP whose argument is gone, used or not: `rnd` is an input of the step, not state
(10_state.md R24). -/
def State.restoreRnd (s t : State) : State := { t with rndIn := s.rndIn }

/-- STEP with its random input (R174): the state after it and its report. On a condition the state is left exactly as it
was and the condition goes to the host (60_exceptions.md R195, decision D14). -/
def commandStep (rnd : Byte) (s : State) : Host.Outcome (State × Response) Fault Refusal :=
  match step (s.withRnd rnd) with
  | .next t => .next (s.restoreRnd t, stepReport s)
  | .fault f => .next (s, .stepped (.fault f) false)
  | .refused r => .refused r

/-- One command on a core that has been RESET (R171), the machine's `FONT_DATA` being `font`, which RESET alone reads. A
command outside the contract has no meaning: it is refused (R179, decision D18). -/
def command (font : FontData) (c : Command) (s : State) : Host.Outcome (State × Response) Fault Refusal :=
  match c with
  | .reset => .next (State.resetWith font, .done)
  | .load bytes => if loadFits bytes then .next (s.load bytes, .done) else .refused .loadTooLong
  | .step rnd => commandStep rnd s
  | .tick => .next (s.tick, .done)
  | .setKey index pressed =>
    if h : keyIndexInRange index then .next (s.setKey ⟨index, of_decide_eq_true h⟩ pressed, .done)
    else .refused .keyIndexOutOfRange
  | .fbSnapshot => .next (s, .snapshot s.snapshot)
  | .dumpMemory => .next (s, .dump s.dump)

/-- One command at the core's boundary. `none` is the core before its first RESET, which gives a meaning to RESET alone
(10_state.md R27, decision D17). -/
def boundary (font : FontData) (c : Command) : Option State → Host.Outcome (State × Response) Fault Refusal
  | some s => command font c s
  | none =>
    match c with
    | .reset => .next (State.resetWith font, .done)
    | .load _ | .step _ | .tick | .setKey _ _ | .fbSnapshot | .dumpMemory => .refused .beforeReset

/-- A host's schedule: its commands one after the other, each starting from the state the one before left
(20_memory.md R50; decision D21: which commands and in what order is the host's). Answers the last state and what the
commands returned, in order. -/
def runSchedule (font : FontData) : List Command → Option State → Host.Outcome (Option State × List Response) Fault Refusal
  | [], s => .next (s, [])
  | c :: cs, s =>
    match boundary font c s with
    | .next (t, r) =>
      match runSchedule font cs (some t) with
      | .next (u, rs) => .next (u, r :: rs)
      | .fault f => .fault f
      | .refused e => .refused e
    | .fault f => .fault f
    | .refused e => .refused e

end Sys2Proof.Machine
end

