-- ==== Sys2Proof/Safety.lean ====
section
/-!
DEFINITION. The terms claims are stated in: the parts of the state and what leaves them unchanged (frames), the invariant
of memory's form, and a run in which nothing faults.
-/

namespace Sys2Proof.Machine

/-- The parts of the state: one for each component of 10_state.md R10 (the stack with its pointer), and the model's own
random input. -/
inductive Part where
  | regs | index | pc | stack | delay | sound | keys | display | memory | random
  deriving DecidableEq, Repr

/-- A part reads in `t` as it did in `s`: every register, every key, every cell, every byte of memory. -/
def Unchanged (s t : State) : Part → Prop
  | .regs => ∀ r, t.reg r = s.reg r
  | .index => t.i = s.i
  | .pc => t.pc = s.pc
  | .stack => t.sp = s.sp ∧ t.stack = s.stack
  | .delay => t.dt = s.dt
  | .sound => t.st = s.st
  | .keys => ∀ k, t.keyPressed k = s.keyPressed k
  | .display => ∀ x y, t.fb.cell x y = s.fb.cell x y
  | .memory => ∀ a, t.memRead a = s.memRead a
  | .random => t.rndIn = s.rndIn ∧ t.draws = s.draws

/-- Every part but those listed is unchanged. -/
def OnlyChanges (parts : List Part) (s t : State) : Prop := ∀ p, p ∉ parts → Unchanged s t p

/-- Every register but those listed is unchanged. -/
def RegsUnchangedBut (rs : List Reg) (s t : State) : Prop := ∀ r, r ∉ rs → t.reg r = s.reg r

/-- Every byte of memory is unchanged but the `n` bytes at `addr`, `addr + 1`, ..., each address masked by itself. -/
def MemoryUnchangedOutside (addr n : Nat) (s t : State) : Prop :=
  ∀ a, (∀ k, k < n → maskAddr (addr + k) ≠ maskAddr a) → t.memRead a = s.memRead a

/-- The invariant of the model's own data: memory is in its one canonical form. -/
def State.canonical (s : State) : Prop := Memory.wf s.mem = true

/-- No step of the run from `s` faults or is refused (60_exceptions.md R195: "a `Fault` outcome is a run gone wrong"). -/
def FaultFree (s : State) : Prop := ∀ k, ∃ t, Sys2Proof.core.run k s = .next t

end Sys2Proof.Machine
end

