-- ==== Sys2Proof/Certificates/Slice0/Obligations.lean ====
section
/-!
DEFINITION. The statements about the model, for the provers: encoding, the step, the invariants, the rules over all
instructions, each instruction's result with its frame, and the host's commands.
-/

open Sys2Proof Sys2Proof.Machine

/-! ### Encoding (30_encoding.md) -/

/-- Every instruction, with every operand, decodes back from its word and from its bytes in memory. -/
def Obligations.DecodeOfEncode : Prop :=
  ∀ i : Instr, decodeWord (encode i) = some i ∧ decode (encodeBytes i) = .ok i

/-- A word has one meaning: what decodes to an instruction is that instruction's word, bit for bit. -/
def Obligations.EncodeOfDecode : Prop :=
  ∀ (op : Word) (i : Instr), decodeWord op = some i → encode i = op

/-- R64: the decoder's algorithm and the opcode map say the same: a word decodes exactly when it matches one of the 34
rows, and then it matches the row of the instruction it decodes to; "no word matches two rows". -/
def Obligations.DecoderFollowsOpcodeMap : Prop :=
  ∀ op : Word,
    ((∃ i, decodeWord op = some i) ↔ ∃ row ∈ opcodeMap, op &&& row.mask = row.bits) ∧
    (∀ i, decodeWord op = some i → op &&& (opcodeRow i).mask = (opcodeRow i).bits) ∧
    (∀ row ∈ opcodeMap, ∀ other ∈ opcodeMap,
      op &&& row.mask = row.bits → op &&& other.mask = other.bits → row = other)

/-- The words of no instruction, as R66 lists them by family (the exact reading of the digits is the spec's decision D8):
`n` is the word as a number, `n / 4096` its first digit, `n % 16` its last, `n % 256` its low byte. -/
def Obligations.UnknownWordsListed : Prop :=
  ∀ op : Word, decodeWord op = none ↔
    (op.toNat / 4096 = 0 ∧ op.toNat ≠ 0x00E0 ∧ op.toNat ≠ 0x00EE) ∨
    (op.toNat / 4096 = 5 ∧ op.toNat % 16 ≠ 0) ∨
    (op.toNat / 4096 = 8 ∧ op.toNat % 16 ∈ [8, 9, 10, 11, 12, 13, 15]) ∨
    (op.toNat / 4096 = 9 ∧ op.toNat % 16 ≠ 0) ∨
    (op.toNat / 4096 = 14 ∧ op.toNat % 256 ∉ [0x9E, 0xA1]) ∨
    (op.toNat / 4096 = 15 ∧ op.toNat % 256 ∉ [0x07, 0x0A, 0x15, 0x18, 0x1E, 0x29, 0x33, 0x55, 0x65])

/-- Words written out from the formats of R62 and the patterns of R65 decode to the instructions they stand for: at
least one of each format. -/
def Obligations.WrittenWordsDecode : Prop :=
  decodeWord 0b0000000011100000#16 = some .cls ∧
  decodeWord 0b0000000011101110#16 = some .ret ∧
  decodeWord 0b0010101010111100#16 = some (.call 0xABC) ∧
  decodeWord 0b0110101001000010#16 = some (.ldImm 10 0x42) ∧
  decodeWord 0b1000000100100101#16 = some (.sub 1 2) ∧
  decodeWord 0b1000000111111110#16 = some (.shl 1 15) ∧
  decodeWord 0b1101000000010010#16 = some (.drw 0 1 2) ∧
  decodeWord 0b1110010110100001#16 = some (.sknp 5) ∧
  decodeWord 0b1111001101010101#16 = some (.ldMemVx 3)

/-! ### The step (45_host_interface.md R174) -/

/-- R60, R41: the word fetched is the byte at `pc & 0x0FFF` above the byte at `(pc + 1) & 0x0FFF`, whatever the parity of
`pc` and wherever it points. -/
def Obligations.FetchReadsTwoMaskedBytes : Prop :=
  ∀ s : State,
    s.fetchWord.toNat =
      256 * (s.mem.get (s.pc.toNat % 4096)).toNat + (s.mem.get ((s.pc.toNat + 1) % 4096)).toNat

/-- A step runs the decoded instruction: where the two bytes at `pc` decode to `i`, the step is `exec i`, with nothing
around it (the meaning itself moves `pc`, R14). -/
def Obligations.StepRunsDecodedInstruction : Prop :=
  ∀ (s : State) (i : Instr),
    decode [s.memRead s.pc.toNat, s.memRead (s.pc.toNat + 1)] = .ok i → step s = exec i s

/-- R191: a step whose two bytes decode to nothing faults; the host gets the state as it was, so that `pc` still addresses
the word. That the `info` is the address and the word, and that no redraw is reported, is the spec's decision D14 (R190,
R195; log entry 7). -/
def Obligations.UnknownWordFaults : Prop :=
  ∀ (s : State) (rnd : Byte),
    decodeWord s.fetchWord = none →
    step s = .fault (.unknownOpcode s.pc s.fetchWord) ∧
    commandStep rnd s = .next (s, .stepped (.fault (.unknownOpcode s.pc s.fetchWord)) false)

/-! ### Conditions (60_exceptions.md) -/

/-- A step faults in exactly three cases and is never refused (R190, R194, R196); each fault carries the `info` of R190's
table, whose choice is the spec's decision D14 (log entry 7). -/
def Obligations.ExactlyThreeConditions : Prop :=
  ∀ s : State,
    (∀ f, step s = .fault f ↔
      (decodeWord s.fetchWord = none ∧ f = .unknownOpcode s.pc s.fetchWord) ∨
      (∃ nnn, decodeWord s.fetchWord = some (.call nnn) ∧ s.sp.val = 16 ∧ f = .stackOverflow s.pc) ∨
      (decodeWord s.fetchWord = some .ret ∧ s.sp.val = 0 ∧ f = .stackUnderflow s.pc)) ∧
    (∀ r, step s ≠ .refused r)

/-- `2NNN` with a full stack raises StackOverflow and `00EE` with an empty one StackUnderflow (R192, R193); with room, and
with an entry, nothing is raised. That each carries its own address, that the whole state is unchanged and that no redraw
is reported is R190 and R195, the spec's decision D14 (log entry 7). -/
def Obligations.StackConditionsSurfaced : Prop :=
  ∀ (s : State) (rnd : Byte),
    (∀ nnn, decodeWord s.fetchWord = some (.call nnn) →
      (s.sp.val = 16 → step s = .fault (.stackOverflow s.pc) ∧
        commandStep rnd s = .next (s, .stepped (.fault (.stackOverflow s.pc)) false)) ∧
      (s.sp.val ≠ 16 → ∃ t, step s = .next t)) ∧
    (decodeWord s.fetchWord = some .ret →
      (s.sp.val = 0 → step s = .fault (.stackUnderflow s.pc) ∧
        commandStep rnd s = .next (s, .stepped (.fault (.stackUnderflow s.pc)) false)) ∧
      (s.sp.val ≠ 0 → ∃ t, step s = .next t))

/-- A STEP that faults leaves the whole state exactly as it was and reports no redraw (R195; the spec's decision D14), and
a further STEP faults alike (R205). -/
def Obligations.FaultLeavesStateUnchanged : Prop :=
  ∀ (rnd rnd' : Byte) (s t : State) (f : Fault) (redraw : Bool),
    commandStep rnd s = .next (t, .stepped (.fault f) redraw) →
    t = s ∧ redraw = false ∧ commandStep rnd' t = .next (s, .stepped (.fault f) false)

/-! ### Rules over all instructions -/

/-- "A STEP never changes `KEY`, and changes `DT` or `ST` only by `FX15` and `FX18`" (R174). -/
def Obligations.KeysAndTimersUnderStep : Prop :=
  ∀ s t : State, step s = .next t →
    t.key = s.key ∧
    (t.dt = s.dt ∨ ∃ x, decodeWord s.fetchWord = some (.ldDtVx x) ∧ t.dt = s.reg x) ∧
    (t.st = s.st ∨ ∃ x, decodeWord s.fetchWord = some (.ldStVx x) ∧ t.st = s.reg x)

/-- "Within STEP, the only instructions that write `MEM` are `FX33` and `FX55`" (R28; 90_conflicts.md C3). -/
def Obligations.OnlyTwoInstructionsWriteMemory : Prop :=
  ∀ (i : Instr) (s t : State), exec i s = .next t →
    (∃ x, i = .ldB x ∨ i = .ldMemVx x) ∨ (t.mem = s.mem ∧ ∀ a, t.memRead a = s.memRead a)

/-- `FB` is "mutated only by the clear-screen and sprite-draw opcodes" (R22). -/
def Obligations.OnlyClearAndDrawChangeDisplay : Prop :=
  ∀ (i : Instr) (s t : State), exec i s = .next t →
    i = .cls ∨ (∃ x y n, i = .drw x y n) ∨ ∀ x y, t.fb.cell x y = s.fb.cell x y

/-- `I` is written by `ANNN`, `FX1E`, `FX29`, `FX55`, `FX65` and by no other instruction (R13). -/
def Obligations.OnlyFiveInstructionsWriteIndex : Prop :=
  ∀ (i : Instr) (s t : State), exec i s = .next t →
    (∃ nnn, i = .ldI nnn) ∨ (∃ x, i = .addI x ∨ i = .ldF x ∨ i = .ldMemVx x ∨ i = .ldVxMem x) ∨ t.i = s.i

/-- The stack moves by call and return alone, an entry is written by a call alone, and a return leaves the popped entry
where it was (R17, R18; the width of an entry is the spec's decision D16). -/
def Obligations.OnlyCallAndReturnMoveStack : Prop :=
  ∀ (i : Instr) (s t : State), exec i s = .next t →
    ((∃ nnn, i = .call nnn) ∧ t.sp.val = s.sp.val + 1 ∧ ∀ k : Fin 16, k.val ≠ s.sp.val → t.stack[k] = s.stack[k]) ∨
    (i = .ret ∧ t.sp.val + 1 = s.sp.val ∧ t.stack = s.stack) ∨
    (t.sp = s.sp ∧ t.stack = s.stack)

/-- An instruction that is none of the seven flag writers changes `VF` only where its own destination is register 15
(R12): for each instruction but the seven, its destination registers. -/
def Obligations.VfChangesOnlyAsFlagOrDestination : Prop :=
  ∀ (i : Instr) (s t : State), exec i s = .next t → t.reg VF ≠ s.reg VF →
    (∃ x y, i = .addReg x y ∨ i = .sub x y ∨ i = .shr x y ∨ i = .subn x y ∨ i = .shl x y) ∨
    (∃ x, i = .addI x) ∨ (∃ x y n, i = .drw x y n) ∨
    (∃ nn, i = .ldImm VF nn ∨ i = .addImm VF nn ∨ i = .rnd VF nn) ∨
    (∃ y, i = .ldReg VF y ∨ i = .orReg VF y ∨ i = .andReg VF y ∨ i = .xorReg VF y) ∨
    i = .ldVxDt VF ∨ i = .ldVxK VF ∨ i = .ldVxMem VF

/-- R15, the complete table: how each instruction leaves `pc` (sums modulo 2^16, as those of `BitVec 16` are). The
conditions are those of the instructions' own rules; that `EX9E` and `EXA1` test the key of the low four bits of `V[X]` is
the spec's decision D12 (R156, log entry 13). That a step that faults leaves `pc` is its decision D14 (log entry 7). -/
def Obligations.PcAfterEveryInstruction : Prop :=
  (∀ (i : Instr) (s t : State), exec i s = .next t →
    match i with
    | .jp nnn | .call nnn => t.pc = nnn.setWidth 16
    | .jpV0 nnn => t.pc = nnn.setWidth 16 + (s.reg 0).setWidth 16
    | .ret => ∃ k : Fin 16, k.val + 1 = s.sp.val ∧ t.pc = s.stack[k] + 2
    | .seImm x nn => t.pc = if s.reg x = nn then s.pc + 4 else s.pc + 2
    | .sneImm x nn => t.pc = if s.reg x ≠ nn then s.pc + 4 else s.pc + 2
    | .seReg x y => t.pc = if s.reg x = s.reg y then s.pc + 4 else s.pc + 2
    | .sneReg x y => t.pc = if s.reg x ≠ s.reg y then s.pc + 4 else s.pc + 2
    | .skp x => ∃ k : Key, k.val = (s.reg x).toNat % 16 ∧
        t.pc = if s.keyPressed k = true then s.pc + 4 else s.pc + 2
    | .sknp x => ∃ k : Key, k.val = (s.reg x).toNat % 16 ∧
        t.pc = if s.keyPressed k = false then s.pc + 4 else s.pc + 2
    | .ldVxK _ => t.pc = if ∃ k, s.keyPressed k = true then s.pc + 2 else s.pc
    | _ => t.pc = s.pc + 2) ∧
  (∀ (rnd : Byte) (s t : State) (f : Fault) (redraw : Bool),
    commandStep rnd s = .next (t, .stepped (.fault f) redraw) → t.pc = s.pc)

/-! ### Invariants and what a step cannot see -/

/-- Every step keeps the canonical form of memory, from every state that has it. -/
def Obligations.StepKeepsMemoryCanonical : Prop :=
  ∀ s t : State, s.canonical → step s = .next t → t.canonical

/-- The state after RESET has it, whatever the parameter `FONT_DATA` is. -/
def Obligations.ResetMemoryCanonical : Prop :=
  State.reset.canonical ∧ ∀ font : FontData, (State.resetWith font).canonical

/-- A whole schedule of the host's commands, LOAD and RESET among them, keeps the canonical form of memory: from a state
that has it, and from a core that has not been reset yet. -/
def Obligations.ScheduleKeepsMemoryCanonical : Prop :=
  ∀ (font : FontData) (cs : List Command) (m : Option State) (u : State) (rs : List Response),
    (∀ s, m = some s → s.canonical) → runSchedule font cs m = .next (some u, rs) → u.canonical

/-- "A step of any other instruction ignores `rnd`" (R111, R24): two states that differ only in the random input step
alike and still differ only there, unless the instruction is `CXNN`. -/
def Obligations.OnlyRndSeesTheRandomInput : Prop :=
  ∀ (s : State) (supplied : List Byte) (drawn : Nat),
    (∀ x nn, decodeWord s.fetchWord ≠ some (.rnd x nn)) →
    (∀ t, step s = .next t →
      step { s with rndIn := supplied, draws := drawn } = .next { t with rndIn := supplied, draws := drawn }) ∧
    (∀ f, step s = .fault f → step { s with rndIn := supplied, draws := drawn } = .fault f)

/-- No instruction reads `ST` (R20): two states that differ only in `ST` step alike, and then differ at most in `ST`. -/
def Obligations.NoInstructionReadsSoundTimer : Prop :=
  ∀ (s : State) (b : Byte),
    (∀ t, step s = .next t → ∃ c, step { s with st := b } = .next { t with st := c }) ∧
    (∀ f, step s = .fault f → step { s with st := b } = .fault f)

/-- A byte written is the byte read there, and no other byte changes: at any two addresses, masked (R41, R45). -/
def Obligations.MemoryReadAfterWrite : Prop :=
  ∀ (s : State) (a c : Nat) (b : Byte), s.canonical →
    (s.setMem (s.mem.write a b)).memRead c = if a % 4096 = c % 4096 then b else s.memRead c

/-! ### Display (43_display.md) -/

/-- R140: `00E0` clears every cell, asks for a redraw, and changes nothing else but `pc`. -/
def Obligations.ClearScreenClearsEveryCell : Prop :=
  ∀ s : State, ∃ t, exec .cls s = .next t ∧
    (∀ x y, t.fb.cell x y = false) ∧ t.pc = s.pc + 2 ∧ OnlyChanges [.display, .pc] s t ∧
    (∀ rnd, decodeWord s.fetchWord = some .cls → ∃ u, commandStep rnd s = .next (u, .stepped .ok true))

/-- `DXYN` (R141; the coordinates, the bit order and the reading of the operands before `VF` is written are the spec's
decision D10): a cell is turned over exactly where a set bit of a row byte falls on it, coordinates modulo 64 and 32;
`VF` is 1 exactly where such a cell was lit; a redraw is reported; nothing else changes but `pc`. -/
def Obligations.DrawTogglesExactlyTheSprite : Prop :=
  ∀ (x y : Reg) (n : Fin 16) (s : State),
    let covered := fun (px : Column) (py : Row) =>
      ∃ r c : Nat, r < n.val ∧ c < 8 ∧ (s.memRead (s.i.toNat + r)).getLsbD (7 - c) = true ∧
        px.val = ((s.reg x).toNat + c) % 64 ∧ py.val = ((s.reg y).toNat + r) % 32
    ∃ t, exec (.drw x y n) s = .next t ∧
      (∀ px py, covered px py → t.fb.cell px py = !s.fb.cell px py) ∧
      (∀ px py, ¬ covered px py → t.fb.cell px py = s.fb.cell px py) ∧
      ((∃ px py, covered px py ∧ s.fb.cell px py = true) → t.reg VF = 1) ∧
      ((¬ ∃ px py, covered px py ∧ s.fb.cell px py = true) → t.reg VF = 0) ∧
      t.pc = s.pc + 2 ∧ RegsUnchangedBut [VF] s t ∧ OnlyChanges [.display, .regs, .pc] s t ∧
      (∀ rnd, decodeWord s.fetchWord = some (.drw x y n) → ∃ u, commandStep rnd s = .next (u, .stepped .ok true))

/-- The same sprite drawn twice at the same place (`VF` naming no coordinate) restores the display; on a display that was
clear, the second draw sets `VF` to 1 exactly where the sprite has a set bit (R141, corner cases; §8). -/
def Obligations.DrawingTwiceRestoresDisplay : Prop :=
  ∀ (x y : Reg) (n : Fin 16) (s t u : State), x ≠ VF → y ≠ VF →
    exec (.drw x y n) s = .next t → exec (.drw x y n) t = .next u →
    (∀ px py, u.fb.cell px py = s.fb.cell px py) ∧
    ((∀ px py, s.fb.cell px py = false) →
      (u.reg VF = 1 ↔ ∃ r : Nat, r < n.val ∧ s.memRead (s.i.toNat + r) ≠ 0))

/-! ### Control transfer (40_control_transfer.md) -/

/-- R81, R87: `1NNN` goes to `NNN`, `BNNN` to `NNN + V0`, neither masked nor wrapped; nothing else changes. -/
def Obligations.JumpsSetPc : Prop :=
  ∀ (nnn : BitVec 12) (s : State),
    (∃ t, exec (.jp nnn) s = .next t ∧ t.pc.toNat = nnn.toNat ∧ OnlyChanges [.pc] s t) ∧
    (∃ t, exec (.jpV0 nnn) s = .next t ∧ t.pc.toNat = nnn.toNat + (s.reg 0).toNat ∧ OnlyChanges [.pc] s t)

/-- R82: `2NNN` with room pushes its own address, all 16 bits, at `STACK[SP]`, adds 1 to `SP` and goes to `NNN`; the other
entries and everything else are unchanged; with a full stack it raises StackOverflow. -/
def Obligations.CallPushesItsOwnAddress : Prop :=
  ∀ (nnn : BitVec 12) (s : State),
    (s.sp.val ≠ 16 → ∃ t, exec (.call nnn) s = .next t ∧
      (∀ k : Fin 16, k.val = s.sp.val → t.stack[k] = s.pc) ∧
      (∀ k : Fin 16, k.val ≠ s.sp.val → t.stack[k] = s.stack[k]) ∧
      t.sp.val = s.sp.val + 1 ∧ t.pc.toNat = nnn.toNat ∧ OnlyChanges [.stack, .pc] s t) ∧
    (s.sp.val = 16 → exec (.call nnn) s = .fault (.stackOverflow s.pc))

/-- R80: `00EE` with an entry takes 1 from `SP` and goes to the entry then at `STACK[SP]` plus 2 modulo 2^16; the entry
stays and everything else is unchanged; with an empty stack it raises StackUnderflow. -/
def Obligations.RetReturnsPastTheCall : Prop :=
  ∀ s : State,
    (s.sp.val ≠ 0 → ∃ t, exec .ret s = .next t ∧ t.sp.val + 1 = s.sp.val ∧
      (∀ k : Fin 16, k.val = t.sp.val → t.pc.toNat = (s.stack[k].toNat + 2) % 65536) ∧
      t.stack = s.stack ∧ OnlyChanges [.stack, .pc] s t) ∧
    (s.sp.val = 0 → exec .ret s = .fault (.stackUnderflow s.pc))

/-- A call and then, from any state with the call's stack, a return: `pc` is past the call and `SP` is as before it. -/
def Obligations.CallThenRetReturns : Prop :=
  ∀ (nnn : BitVec 12) (s t u : State),
    exec (.call nnn) s = .next t → u.stack = t.stack → u.sp = t.sp →
    ∃ w, exec .ret u = .next w ∧ w.pc = s.pc + 2 ∧ w.sp = s.sp

/-- R83, R84: `3XNN` skips where `V[X] = NN`, `4XNN` where not: `pc` plus 4 or plus 2, and nothing else changes. -/
def Obligations.SkipsOnImmediate : Prop :=
  ∀ (x : Reg) (nn : Byte) (s : State),
    (∃ t, exec (.seImm x nn) s = .next t ∧ (s.reg x = nn → t.pc = s.pc + 4) ∧ (s.reg x ≠ nn → t.pc = s.pc + 2) ∧
      OnlyChanges [.pc] s t) ∧
    (∃ t, exec (.sneImm x nn) s = .next t ∧ (s.reg x ≠ nn → t.pc = s.pc + 4) ∧ (s.reg x = nn → t.pc = s.pc + 2) ∧
      OnlyChanges [.pc] s t)

/-- R85, R86: `5XY0` skips where `V[X] = V[Y]`, `9XY0` where not; with `X = Y` always and never. -/
def Obligations.SkipsOnRegisters : Prop :=
  ∀ (x y : Reg) (s : State),
    (∃ t, exec (.seReg x y) s = .next t ∧ (s.reg x = s.reg y → t.pc = s.pc + 4) ∧
      (s.reg x ≠ s.reg y → t.pc = s.pc + 2) ∧ OnlyChanges [.pc] s t) ∧
    (∃ t, exec (.sneReg x y) s = .next t ∧ (s.reg x ≠ s.reg y → t.pc = s.pc + 4) ∧
      (s.reg x = s.reg y → t.pc = s.pc + 2) ∧ OnlyChanges [.pc] s t)

/-- `EX9E` skips where the key named by `V[X]` is pressed, `EXA1` where not (R150, R151); the key is the low four bits of
`V[X]`, which for a value above 15 is the spec's decision D12 (R156). -/
def Obligations.SkipsOnKey : Prop :=
  ∀ (x : Reg) (k : Key) (s : State), k.val = (s.reg x).toNat % 16 →
    (∃ t, exec (.skp x) s = .next t ∧ (s.keyPressed k = true → t.pc = s.pc + 4) ∧
      (s.keyPressed k = false → t.pc = s.pc + 2) ∧ OnlyChanges [.pc] s t) ∧
    (∃ t, exec (.sknp x) s = .next t ∧ (s.keyPressed k = false → t.pc = s.pc + 4) ∧
      (s.keyPressed k = true → t.pc = s.pc + 2) ∧ OnlyChanges [.pc] s t)

/-! ### Load, arithmetic, logic, shift, random (41_load_alu.md) -/

/-- R100, R102: `6XNN` loads `NN`, `8XY0` copies `V[Y]`; no other register (so no flag) and nothing else but `pc`. -/
def Obligations.LoadsIntoRegister : Prop :=
  ∀ (x y : Reg) (nn : Byte) (s : State),
    (∃ t, exec (.ldImm x nn) s = .next t ∧ t.reg x = nn ∧ t.pc = s.pc + 2 ∧
      RegsUnchangedBut [x] s t ∧ OnlyChanges [.regs, .pc] s t) ∧
    (∃ t, exec (.ldReg x y) s = .next t ∧ t.reg x = s.reg y ∧ t.pc = s.pc + 2 ∧
      RegsUnchangedBut [x] s t ∧ OnlyChanges [.regs, .pc] s t)

/-- R101: `7XNN` adds modulo 256 and writes no flag. -/
def Obligations.AddImmediateWraps : Prop :=
  ∀ (x : Reg) (nn : Byte) (s : State), ∃ t, exec (.addImm x nn) s = .next t ∧
    (t.reg x).toNat = ((s.reg x).toNat + nn.toNat) % 256 ∧ t.pc = s.pc + 2 ∧
    RegsUnchangedBut [x] s t ∧ OnlyChanges [.regs, .pc] s t

/-- R103, R104, R105: or, and, exclusive or, bit by bit, with no flag. -/
def Obligations.LogicBitByBit : Prop :=
  ∀ (x y : Reg) (s : State),
    (∃ t, exec (.orReg x y) s = .next t ∧
      (∀ k, (t.reg x).getLsbD k = ((s.reg x).getLsbD k || (s.reg y).getLsbD k)) ∧ t.pc = s.pc + 2 ∧
      RegsUnchangedBut [x] s t ∧ OnlyChanges [.regs, .pc] s t) ∧
    (∃ t, exec (.andReg x y) s = .next t ∧
      (∀ k, (t.reg x).getLsbD k = ((s.reg x).getLsbD k && (s.reg y).getLsbD k)) ∧ t.pc = s.pc + 2 ∧
      RegsUnchangedBut [x] s t ∧ OnlyChanges [.regs, .pc] s t) ∧
    (∃ t, exec (.xorReg x y) s = .next t ∧
      (∀ k, (t.reg x).getLsbD k = ((s.reg x).getLsbD k ^^ (s.reg y).getLsbD k)) ∧ t.pc = s.pc + 2 ∧
      RegsUnchangedBut [x] s t ∧ OnlyChanges [.regs, .pc] s t)

/-- R106, R107, R109 where `VF` is no operand: sum and differences modulo 256; `VF` is 1 on carry, and for the differences
1 on no borrow. `X = Y` is included. -/
def Obligations.AddSubtractWithFlag : Prop :=
  ∀ (x y : Reg) (s : State), x ≠ VF → y ≠ VF →
    let vx := (s.reg x).toNat
    let vy := (s.reg y).toNat
    (∃ t, exec (.addReg x y) s = .next t ∧ (t.reg x).toNat = (vx + vy) % 256 ∧
      (t.reg VF).toNat = (if vx + vy > 255 then 1 else 0) ∧ t.pc = s.pc + 2 ∧
      RegsUnchangedBut [x, VF] s t ∧ OnlyChanges [.regs, .pc] s t) ∧
    (∃ t, exec (.sub x y) s = .next t ∧ (t.reg x).toNat = (vx + 256 - vy) % 256 ∧
      (t.reg VF).toNat = (if vy > vx then 0 else 1) ∧ t.pc = s.pc + 2 ∧
      RegsUnchangedBut [x, VF] s t ∧ OnlyChanges [.regs, .pc] s t) ∧
    (∃ t, exec (.subn x y) s = .next t ∧ (t.reg x).toNat = (vy + 256 - vx) % 256 ∧
      (t.reg VF).toNat = (if vx > vy then 0 else 1) ∧ t.pc = s.pc + 2 ∧
      RegsUnchangedBut [x, VF] s t ∧ OnlyChanges [.regs, .pc] s t)

/-- R108, R110 where `VF` is no operand: shifts by one in place, whatever field `Y` is; `VF` is the bit shifted out. -/
def Obligations.ShiftsByOneInPlace : Prop :=
  ∀ (x y : Reg) (s : State), x ≠ VF →
    let vx := (s.reg x).toNat
    (∃ t, exec (.shr x y) s = .next t ∧ (t.reg x).toNat = vx / 2 ∧ (t.reg VF).toNat = vx % 2 ∧ t.pc = s.pc + 2 ∧
      RegsUnchangedBut [x, VF] s t ∧ OnlyChanges [.regs, .pc] s t) ∧
    (∃ t, exec (.shl x y) s = .next t ∧ (t.reg x).toNat = 2 * vx % 256 ∧ (t.reg VF).toNat = vx / 128 ∧
      t.pc = s.pc + 2 ∧ RegsUnchangedBut [x, VF] s t ∧ OnlyChanges [.regs, .pc] s t)

/-- The table of R113, row by row: `VF` named as an operand of a flag-writing instruction of family 8. The order it rests
on, the flag before the result, is the spec's decision D9 (00_scope.md R7). -/
def Obligations.VfAsOperandOfFlagWriter : Prop :=
  ∀ (x y : Reg) (s : State), x ≠ VF → y ≠ VF →
    let vf := (s.reg VF).toNat
    let vx := (s.reg x).toNat
    let vy := (s.reg y).toNat
    let ends := fun (i : Instr) (result flag : Nat) =>
      ∃ t, exec i s = .next t ∧ (t.reg x).toNat = result ∧ (t.reg VF).toNat = flag ∧ t.pc = s.pc + 2 ∧
        RegsUnchangedBut [x, VF] s t ∧ OnlyChanges [.regs, .pc] s t
    let endsF := fun (i : Instr) (flag : Nat) =>
      ∃ t, exec i s = .next t ∧ (t.reg VF).toNat = flag ∧ t.pc = s.pc + 2 ∧
        RegsUnchangedBut [VF] s t ∧ OnlyChanges [.regs, .pc] s t
    let carry := fun (a b : Nat) => if a + b > 255 then 1 else 0
    let noBorrow := fun (a b : Nat) => if b > a then 0 else 1
    ends (.addReg x VF) ((vx + carry vx vf) % 256) (carry vx vf) ∧
    endsF (.addReg VF y) ((carry vf vy + vy) % 256) ∧
    endsF (.addReg VF VF) (2 * carry vf vf) ∧
    ends (.sub x VF) ((vx + 256 - noBorrow vx vf) % 256) (noBorrow vx vf) ∧
    endsF (.sub VF y) ((noBorrow vf vy + 256 - vy) % 256) ∧
    endsF (.sub VF VF) 0 ∧
    (∀ z, endsF (.shr VF z) 0) ∧
    ends (.subn x VF) ((noBorrow vf vx + 256 - vx) % 256) (noBorrow vf vx) ∧
    endsF (.subn VF y) ((vy + 256 - noBorrow vy vf) % 256) ∧
    endsF (.subn VF VF) 0 ∧
    (∀ z, endsF (.shl VF z) (2 * (vf / 128)))

/-- `CXNN` (R111; the random byte as a free input is the spec's decision D15, in this model log entry 1): `V[X]` is some
byte and-ed with `NN`, and where the step's random byte is given, that byte; every bit of `V[X]` whose bit of `NN` is 0 is
0. It holds whatever the free byte is. -/
def Obligations.RndMasksTheRandomByte : Prop :=
  ∀ (x : Reg) (nn : Byte) (s : State), ∃ t, exec (.rnd x nn) s = .next t ∧
    (∃ rnd : Byte, t.reg x = rnd &&& nn) ∧
    (∀ rnd rest, s.rndIn = rnd :: rest → t.reg x = rnd &&& nn ∧ t.rndIn = rest ∧ t.draws = s.draws) ∧
    (∀ k, nn.getLsbD k = false → (t.reg x).getLsbD k = false) ∧
    t.pc = s.pc + 2 ∧ RegsUnchangedBut [x] s t ∧ OnlyChanges [.regs, .pc, .random] s t

/-- The random input of a STEP command is the byte a `CXNN` of that step uses, and it is no state: the step leaves the
random part of the state as it was, whatever the instruction (R24, R174; decision D15). -/
def Obligations.StepCommandSuppliesRandomByte : Prop :=
  ∀ (rnd : Byte) (s : State),
    (∀ x nn, decodeWord s.fetchWord = some (.rnd x nn) →
      ∃ t, commandStep rnd s = .next (t, .stepped .ok false) ∧ t.reg x = rnd &&& nn ∧ t.pc = s.pc + 2 ∧
        RegsUnchangedBut [x] s t ∧ OnlyChanges [.regs, .pc] s t) ∧
    (∀ t r, commandStep rnd s = .next (t, r) → t.rndIn = s.rndIn ∧ t.draws = s.draws)

/-! ### Index register and memory (42_index_memory.md) -/

/-- R120, R122: `ANNN` loads `NNN`; `FX29` loads five times the whole byte `V[X]`, which never wraps. -/
def Obligations.LoadIndexRegister : Prop :=
  ∀ (nnn : BitVec 12) (x : Reg) (s : State),
    (∃ t, exec (.ldI nnn) s = .next t ∧ t.i.toNat = nnn.toNat ∧ t.pc = s.pc + 2 ∧ OnlyChanges [.index, .pc] s t) ∧
    (∃ t, exec (.ldF x) s = .next t ∧ t.i.toNat = 5 * (s.reg x).toNat ∧ t.pc = s.pc + 2 ∧
      OnlyChanges [.index, .pc] s t)

/-- `FX1E` (R121): `VF` is 1 where the sum of the whole 16-bit `I` and `V[X]` is above 0xFFF (the unmasked `I` is the
spec's decision D6), `I` the sum modulo 2^16; with `X = 15` the sum takes the new `VF` (decision D9). -/
def Obligations.AddToIndexRegister : Prop :=
  ∀ (x : Reg) (s : State),
    let f := if s.i.toNat + (s.reg x).toNat > 0xFFF then 1 else 0
    ∃ t, exec (.addI x) s = .next t ∧ (t.reg VF).toNat = f ∧
      (x ≠ VF → t.i.toNat = (s.i.toNat + (s.reg x).toNat) % 65536) ∧
      (x = VF → t.i.toNat = (s.i.toNat + f) % 65536) ∧
      t.pc = s.pc + 2 ∧ RegsUnchangedBut [VF] s t ∧ OnlyChanges [.index, .regs, .pc] s t

/-- R123: `FX33` stores the hundreds, tens and units of `V[X]` at `I`, `I + 1`, `I + 2`, each address masked by itself;
every other byte, `I` and the registers are unchanged. -/
def Obligations.DecimalDigitsStored : Prop :=
  ∀ (x : Reg) (s : State), s.canonical → ∃ t, exec (.ldB x) s = .next t ∧
    (t.memRead s.i.toNat).toNat = (s.reg x).toNat / 100 ∧
    (t.memRead (s.i.toNat + 1)).toNat = (s.reg x).toNat / 10 % 10 ∧
    (t.memRead (s.i.toNat + 2)).toNat = (s.reg x).toNat % 10 ∧
    MemoryUnchangedOutside s.indexAddr 3 s t ∧ t.pc = s.pc + 2 ∧ OnlyChanges [.memory, .pc] s t

/-- R124: `FX55` stores `V[0]` to `V[X]`, inclusive, at `I`, `I + 1`, ..., each address masked by itself, and adds
`X + 1` to `I` modulo 2^16; every other byte and the registers are unchanged. -/
def Obligations.RegistersStored : Prop :=
  ∀ (x : Reg) (s : State), s.canonical → ∃ t, exec (.ldMemVx x) s = .next t ∧
    (∀ k : Reg, k.val ≤ x.val → t.memRead (s.i.toNat + k.val) = s.reg k) ∧
    MemoryUnchangedOutside s.indexAddr (x.val + 1) s t ∧
    t.i.toNat = (s.i.toNat + x.val + 1) % 65536 ∧ t.pc = s.pc + 2 ∧ OnlyChanges [.memory, .index, .pc] s t

/-- R125: `FX65` loads `V[0]` to `V[X]`, inclusive, from `I`, `I + 1`, ..., each address masked by itself, and adds
`X + 1` to `I` modulo 2^16; the other registers and every byte of memory are unchanged. -/
def Obligations.RegistersLoaded : Prop :=
  ∀ (x : Reg) (s : State), ∃ t, exec (.ldVxMem x) s = .next t ∧
    (∀ k : Reg, k.val ≤ x.val → t.reg k = s.memRead (s.i.toNat + k.val)) ∧
    (∀ k : Reg, x.val < k.val → t.reg k = s.reg k) ∧
    t.i.toNat = (s.i.toNat + x.val + 1) % 65536 ∧ t.pc = s.pc + 2 ∧ OnlyChanges [.regs, .index, .pc] s t

/-- The round trip of §8 as 90_conflicts.md C11 corrects it: `FX55`, then, from any state with the memory it left and `I`
set back, `FX65`: `V[0..X]` are the registers stored, and `I` is `X + 1` further on. -/
def Obligations.StoreThenLoadRestoresRegisters : Prop :=
  ∀ (x : Reg) (s t u : State), s.canonical → exec (.ldMemVx x) s = .next t → u.mem = t.mem → u.i = s.i →
    ∃ w, exec (.ldVxMem x) u = .next w ∧ (∀ k : Reg, k.val ≤ x.val → w.reg k = s.reg k) ∧ w.i = t.i

/-- A store is seen by the very next fetch (R52, R227): where `FX55` with `X` at least 1 stores over the instruction that
follows it, the next word fetched is `V[0]` above `V[1]` (R42). -/
def Obligations.StoreIsSeenByTheNextFetch : Prop :=
  ∀ (x : Reg) (s t : State), s.canonical → 1 ≤ x.val → s.i.toNat % 4096 = (s.pc + 2).toNat % 4096 →
    exec (.ldMemVx x) s = .next t → t.fetchWord.toNat = 256 * (s.reg 0).toNat + (s.reg 1).toNat

/-! ### Timers and keypad (44_timers_keypad.md) -/

/-- R152, R154, R155: `FX07` copies `DT`, `FX15` sets `DT`, `FX18` sets `ST`; nothing else changes but `pc`. -/
def Obligations.TimerInstructions : Prop :=
  ∀ (x : Reg) (s : State),
    (∃ t, exec (.ldVxDt x) s = .next t ∧ t.reg x = s.dt ∧ t.pc = s.pc + 2 ∧
      RegsUnchangedBut [x] s t ∧ OnlyChanges [.regs, .pc] s t) ∧
    (∃ t, exec (.ldDtVx x) s = .next t ∧ t.dt = s.reg x ∧ t.pc = s.pc + 2 ∧ OnlyChanges [.delay, .pc] s t) ∧
    (∃ t, exec (.ldStVx x) s = .next t ∧ t.st = s.reg x ∧ t.pc = s.pc + 2 ∧ OnlyChanges [.sound, .pc] s t)

/-- `FX0A` (R153): with no key pressed the whole state is unchanged and a STEP reports `Wait`; with a key pressed `V[X]` is
the least pressed key (that the scan ascends is the spec's decision D13), `pc` advances and a STEP reports `Ok`. -/
def Obligations.KeyWaitBlocksOrLoadsLeastKey : Prop :=
  ∀ (x : Reg) (s : State),
    ((∀ k, s.keyPressed k = false) → exec (.ldVxK x) s = .next s ∧
      ∀ rnd, decodeWord s.fetchWord = some (.ldVxK x) → commandStep rnd s = .next (s, .stepped .wait false)) ∧
    (∀ k : Key, s.keyPressed k = true → (∀ j : Key, j < k → s.keyPressed j = false) →
      ∃ t, exec (.ldVxK x) s = .next t ∧ (t.reg x).toNat = k.val ∧ t.pc = s.pc + 2 ∧
        RegsUnchangedBut [x] s t ∧ OnlyChanges [.regs, .pc] s t ∧
        ∀ rnd, decodeWord s.fetchWord = some (.ldVxK x) → ∃ u, commandStep rnd s = .next (u, .stepped .ok false))

/-! ### The host's commands (45_host_interface.md, 70_reset_and_hazards.md) -/

/-- R175: TICK takes 1 from each timer that is not 0, each by itself, and changes nothing else. -/
def Obligations.TickCountsDownToZero : Prop :=
  ∀ (font : FontData) (s : State), ∃ t, command font .tick s = .next (t, .done) ∧
    t.dt.toNat = s.dt.toNat - 1 ∧ t.st.toNat = s.st.toNat - 1 ∧ OnlyChanges [.delay, .sound] s t

/-- SETKEY (R176) overwrites one flag and changes nothing else; an index above 15 is no move of the model (the spec's
decision D18), which refuses it. -/
def Obligations.SetKeyOverwritesOneFlag : Prop :=
  ∀ (font : FontData) (index : Nat) (pressed : Bool) (s : State),
    (index < 16 → ∃ t, command font (.setKey index pressed) s = .next (t, .done) ∧
      (∀ k : Key, k.val = index → t.keyPressed k = pressed) ∧
      (∀ k : Key, k.val ≠ index → t.keyPressed k = s.keyPressed k) ∧ OnlyChanges [.keys] s t) ∧
    (16 ≤ index → command font (.setKey index pressed) s = .refused .keyIndexOutOfRange)

/-- LOAD (R173) copies the bytes upward from 0x200 and changes nothing else; more than 3584 bytes is no move of the model
(the spec's decision D18), which refuses it. -/
def Obligations.LoadCopiesProgram : Prop :=
  ∀ (font : FontData) (bytes : List Byte) (s : State), s.canonical →
    (bytes.length ≤ 3584 → ∃ t, command font (.load bytes) s = .next (t, .done) ∧
      (∀ (k : Nat) (b : Byte), bytes[k]? = some b → t.memRead (0x200 + k) = b) ∧
      (∀ a, a < 4096 → (a < 0x200 ∨ 0x200 + bytes.length ≤ a) → t.memRead a = s.memRead a) ∧
      OnlyChanges [.memory] s t) ∧
    (3584 < bytes.length → command font (.load bytes) s = .refused .loadTooLong)

/-- RESET (R26, R29, R220) from any state, and from a core never reset, whatever the parameter `FONT_DATA` is: every
register, the stack, the timers, the keys and the display are 0, memory is the 80 bytes of `FONT_DATA` from 0x000 (the
base is the spec's decision D3) and 0 everywhere else, and `pc` is 0x0200 (the spec's decision D2). `State.reset` is that
state for the parameter's default (decision D4, log entry 2). -/
def Obligations.ResetState : Prop :=
  (∀ font : FontData,
    let z := State.resetWith font
    (∀ m : Option State, boundary font .reset m = .next (z, .done)) ∧
    (∀ r, z.reg r = 0) ∧ z.i = 0 ∧ z.pc.toNat = 0x200 ∧ z.sp = 0 ∧ (∀ k : Fin 16, z.stack[k] = 0) ∧
    z.dt = 0 ∧ z.st = 0 ∧ (∀ k, z.keyPressed k = false) ∧ (∀ x y, z.fb.cell x y = false) ∧
    (∀ k : Fin 80, z.memRead k.val = font[k]) ∧ (∀ a, 80 ≤ a → a < 4096 → z.memRead a = 0)) ∧
  State.reset = State.resetWith defaultFont

/-- R177, R178: the observers return the cells and the 4096 pairs in ascending order (that the dump covers all addresses
is the spec's own reading) and change nothing. -/
def Obligations.ObserversChangeNothing : Prop :=
  ∀ (font : FontData) (s : State),
    (∃ g : Grid, command font .fbSnapshot s = .next (s, .snapshot g) ∧ ∀ x y, g.cell x y = s.fb.cell x y) ∧
    (∃ cells : List Host.Cell, command font .dumpMemory s = .next (s, .dump cells) ∧ cells.length = 4096 ∧
      ∀ a, a < 4096 → cells[a]? = some (a, s.mem.get a))

/-- Before the first RESET no other command has a meaning (R27; the spec's decision D17). -/
def Obligations.NothingBeforeReset : Prop :=
  ∀ (font : FontData) (c : Command), c ≠ .reset → boundary font c none = .refused .beforeReset

/-- The `redraw` output (R143; that it is 1 for every `DXYN` is the spec's decision D11): 1 exactly for a STEP that
completed a `00E0` or a `DXYN`, so never 0 where a cell of the display changed. -/
def Obligations.RedrawCoversEveryDisplayChange : Prop :=
  ∀ (rnd : Byte) (s t : State) (result : StepResult) (redraw : Bool),
    commandStep rnd s = .next (t, .stepped result redraw) →
    (redraw = true ↔ result = .ok ∧
      (decodeWord s.fetchWord = some .cls ∨ ∃ x y n, decodeWord s.fetchWord = some (.drw x y n))) ∧
    ((∃ x y, t.fb.cell x y ≠ s.fb.cell x y) → redraw = true)

/-- The three outcomes of a STEP (R174; the shape is the spec's decision D14): `Wait` exactly for `FX0A` with no key
pressed, `Fault` exactly where the step faults, `Ok` otherwise; after `Wait` and after `Fault` the state is unchanged. -/
def Obligations.StepHasThreeOutcomes : Prop :=
  ∀ (rnd : Byte) (s : State), ∃ t result redraw, commandStep rnd s = .next (t, .stepped result redraw) ∧
    (result = .wait ↔ (∃ x, decodeWord s.fetchWord = some (.ldVxK x)) ∧ ∀ k, s.keyPressed k = false) ∧
    (∀ f, result = .fault f ↔ step s = .fault f) ∧
    (result ≠ .ok → t = s ∧ redraw = false)

/-- A `1NNN` to its own address (R181; decision D22): every further step completes and changes nothing, for ever. -/
def Obligations.SelfJumpIsAFixedPoint : Prop :=
  ∀ (nnn : BitVec 12) (s : State), s.pc.toNat = nnn.toNat → s.fetchWord = encode (.jp nnn) →
    FaultFree s ∧ ∀ k, Sys2Proof.core.run k s = .next s
end

