-- ==== Sys2Proof/Laws/Decode.lean ====
section
/-!
SUPPORT. The fields of a packed word are the fields it was packed from (30_encoding.md R61, R62), and the fields of a word
pack back to it.
-/

namespace Sys2Proof

@[simp] theorem nibbleNum_nibbleBits (x : Fin 16) : nibbleNum (nibbleBits x) = x := by
  revert x; decide

@[simp] theorem nibbleBits_nibbleNum (b : BitVec 4) : nibbleBits (nibbleNum b) = b := by
  revert b; decide

/-! ### Packed words, field by field -/

@[simp] theorem fieldH_packXYN (h : BitVec 4) (x y : Reg) (n : BitVec 4) : fieldH (packXYN h x y n) = h := by
  apply BitVec.eq_of_getLsbD_eq
  intro i hi
  rw [fieldH, packXYN, BitVec.getLsbD_extractLsb', BitVec.getLsbD_append, BitVec.getLsbD_append, BitVec.getLsbD_append]
  grind

@[simp] theorem fieldX_packXYN (h : BitVec 4) (x y : Reg) (n : BitVec 4) : fieldX (packXYN h x y n) = x := by
  have : (packXYN h x y n).extractLsb' 8 4 = nibbleBits x := by
    apply BitVec.eq_of_getLsbD_eq
    intro i hi
    rw [packXYN, BitVec.getLsbD_extractLsb', BitVec.getLsbD_append, BitVec.getLsbD_append, BitVec.getLsbD_append]
    grind
  rw [fieldX, this, nibbleNum_nibbleBits]

@[simp] theorem fieldY_packXYN (h : BitVec 4) (x y : Reg) (n : BitVec 4) : fieldY (packXYN h x y n) = y := by
  have : (packXYN h x y n).extractLsb' 4 4 = nibbleBits y := by
    apply BitVec.eq_of_getLsbD_eq
    intro i hi
    rw [packXYN, BitVec.getLsbD_extractLsb', BitVec.getLsbD_append, BitVec.getLsbD_append]
    grind
  rw [fieldY, this, nibbleNum_nibbleBits]

@[simp] theorem fieldN_packXYN (h : BitVec 4) (x y : Reg) (n : BitVec 4) : fieldN (packXYN h x y n) = n := by
  apply BitVec.eq_of_getLsbD_eq
  intro i hi
  rw [fieldN, packXYN, BitVec.getLsbD_extractLsb', BitVec.getLsbD_append]
  grind

@[simp] theorem fieldH_packXNN (h : BitVec 4) (x : Reg) (nn : Byte) : fieldH (packXNN h x nn) = h := by
  apply BitVec.eq_of_getLsbD_eq
  intro i hi
  rw [fieldH, packXNN, BitVec.getLsbD_extractLsb', BitVec.getLsbD_append, BitVec.getLsbD_append]
  grind

@[simp] theorem fieldX_packXNN (h : BitVec 4) (x : Reg) (nn : Byte) : fieldX (packXNN h x nn) = x := by
  have : (packXNN h x nn).extractLsb' 8 4 = nibbleBits x := by
    apply BitVec.eq_of_getLsbD_eq
    intro i hi
    rw [packXNN, BitVec.getLsbD_extractLsb', BitVec.getLsbD_append, BitVec.getLsbD_append]
    grind
  rw [fieldX, this, nibbleNum_nibbleBits]

@[simp] theorem fieldNN_packXNN (h : BitVec 4) (x : Reg) (nn : Byte) : fieldNN (packXNN h x nn) = nn := by
  apply BitVec.eq_of_getLsbD_eq
  intro i hi
  rw [fieldNN, packXNN, BitVec.getLsbD_extractLsb', BitVec.getLsbD_append]
  grind

@[simp] theorem fieldH_packNNN (h : BitVec 4) (nnn : BitVec 12) : fieldH (packNNN h nnn) = h := by
  apply BitVec.eq_of_getLsbD_eq
  intro i hi
  rw [fieldH, packNNN, BitVec.getLsbD_extractLsb', BitVec.getLsbD_append]
  grind

@[simp] theorem fieldNNN_packNNN (h : BitVec 4) (nnn : BitVec 12) : fieldNNN (packNNN h nnn) = nnn := by
  apply BitVec.eq_of_getLsbD_eq
  intro i hi
  rw [fieldNNN, packNNN, BitVec.getLsbD_extractLsb', BitVec.getLsbD_append]
  grind

/-! ### A word packs back from its fields -/

theorem packXYN_fields (op : Word) : packXYN (fieldH op) (fieldX op) (fieldY op) (fieldN op) = op := by
  apply BitVec.eq_of_getLsbD_eq
  intro i hi
  simp only [packXYN, fieldX, fieldY, nibbleBits_nibbleNum, BitVec.getLsbD_append, fieldH, fieldN,
    BitVec.getLsbD_extractLsb']
  grind

theorem packXNN_fields (op : Word) : packXNN (fieldH op) (fieldX op) (fieldNN op) = op := by
  apply BitVec.eq_of_getLsbD_eq
  intro i hi
  simp only [packXNN, fieldX, nibbleBits_nibbleNum, BitVec.getLsbD_append, fieldH, fieldNN, BitVec.getLsbD_extractLsb']
  grind

theorem packNNN_fields (op : Word) : packNNN (fieldH op) (fieldNNN op) = op := by
  apply BitVec.eq_of_getLsbD_eq
  intro i hi
  simp only [packNNN, BitVec.getLsbD_append, fieldH, fieldNNN, BitVec.getLsbD_extractLsb']
  grind

/-! ### Masking, digit by digit -/

theorem packXYN_and (h : BitVec 4) (x y : Reg) (n a b c d : BitVec 4) :
    packXYN h x y n &&& (a ++ b ++ c ++ d : Word) =
      ((h &&& a) ++ (nibbleBits x &&& b) ++ (nibbleBits y &&& c) ++ (n &&& d) : Word) := by
  refine (BitVec.and_append (y₁ := n) (y₂ := d)).trans (congrArg (· ++ (n &&& d)) ?_)
  refine (BitVec.and_append (y₁ := nibbleBits y) (y₂ := c)).trans (congrArg (· ++ (nibbleBits y &&& c)) ?_)
  exact BitVec.and_append

theorem packXNN_and (h : BitVec 4) (x : Reg) (nn : Byte) (a b : BitVec 4) (c : Byte) :
    packXNN h x nn &&& (a ++ b ++ c : Word) = ((h &&& a) ++ (nibbleBits x &&& b) ++ (nn &&& c) : Word) := by
  refine (BitVec.and_append (y₁ := nn) (y₂ := c)).trans (congrArg (· ++ (nn &&& c)) ?_)
  exact BitVec.and_append

theorem packNNN_and (h : BitVec 4) (nnn : BitVec 12) (a : BitVec 4) (b : BitVec 12) :
    packNNN h nnn &&& (a ++ b : Word) = ((h &&& a) ++ (nnn &&& b) : Word) := by
  exact BitVec.and_append

/-- A word of format `XYF` under the mask `F00F`: its first and last digits. -/
theorem packXYN_mask (h : BitVec 4) (x y : Reg) (n : BitVec 4) :
    packXYN h x y n &&& 0xF00F#16 = (h ++ 0#4 ++ 0#4 ++ n : Word) := by
  rw [show (0xF00F#16 : Word) = (0xF#4 ++ 0x0#4 ++ 0x0#4 ++ 0xF#4 : Word) by decide, packXYN_and,
    show (0xF#4 : BitVec 4) = BitVec.allOnes 4 by decide]
  simp only [BitVec.and_allOnes, BitVec.and_zero]

/-- A word of format `XYN` under the mask `F000`: its first digit. -/
theorem packXYN_maskH (h : BitVec 4) (x y : Reg) (n : BitVec 4) :
    packXYN h x y n &&& 0xF000#16 = (h ++ 0#4 ++ 0#4 ++ 0#4 : Word) := by
  rw [show (0xF000#16 : Word) = (0xF#4 ++ 0x0#4 ++ 0x0#4 ++ 0x0#4 : Word) by decide, packXYN_and,
    show (0xF#4 : BitVec 4) = BitVec.allOnes 4 by decide]
  simp only [BitVec.and_allOnes, BitVec.and_zero]

/-- A word of format `XNN` under the mask `F000`: its first digit. -/
theorem packXNN_maskH (h : BitVec 4) (x : Reg) (nn : Byte) :
    packXNN h x nn &&& 0xF000#16 = (h ++ 0#4 ++ 0#8 : Word) := by
  rw [show (0xF000#16 : Word) = (0xF#4 ++ 0x0#4 ++ 0x00#8 : Word) by decide, packXNN_and,
    show (0xF#4 : BitVec 4) = BitVec.allOnes 4 by decide]
  simp only [BitVec.and_allOnes, BitVec.and_zero]

/-- A word of format `XFF` under the mask `F0FF`: its first digit and its low byte. -/
theorem packXNN_mask (h : BitVec 4) (x : Reg) (nn : Byte) :
    packXNN h x nn &&& 0xF0FF#16 = (h ++ 0#4 ++ nn : Word) := by
  rw [show (0xF0FF#16 : Word) = (0xF#4 ++ 0x0#4 ++ 0xFF#8 : Word) by decide, packXNN_and,
    show (0xF#4 : BitVec 4) = BitVec.allOnes 4 by decide, show (0xFF#8 : Byte) = BitVec.allOnes 8 by decide]
  simp only [BitVec.and_allOnes, BitVec.and_zero]

/-- A word of format `NNN` under the mask `F000`: its first digit. -/
theorem packNNN_mask (h : BitVec 4) (nnn : BitVec 12) :
    packNNN h nnn &&& 0xF000#16 = (h ++ 0#12 : Word) := by
  rw [show (0xF000#16 : Word) = (0xF#4 ++ 0x000#12 : Word) by decide, packNNN_and,
    show (0xF#4 : BitVec 4) = BitVec.allOnes 4 by decide]
  simp only [BitVec.and_allOnes, BitVec.and_zero]

end Sys2Proof
end

