-- ==== Sys2Proof/Laws/Display.lean ====
section
/-!
SUPPORT. What a sprite draw does to each cell and to the collision flag, said once (43_display.md R141).
-/

namespace Sys2Proof.Machine

theorem Grid.cell_toggle (g : Grid) (x x' : Column) (y y' : Row) :
    (g.toggle x y).cell x' y' = if x = x' ∧ y = y' then !g.cell x' y' else g.cell x' y' := by
  unfold Grid.toggle Grid.cell
  rw [Vector.getElem_set]
  by_cases hx : x = x'
  · subst hx
    simp only [if_true, Vector.getElem_set, true_and]
    by_cases hy : y = y'
    · subst hy; simp
    · have : ¬ y.val = y'.val := fun e => hy (Fin.ext e)
      simp [hy, this]
  · have : ¬ x.val = x'.val := fun e => hx (Fin.ext e)
    simp [hx, this]

@[simp] theorem Grid.cell_clear (x : Column) (y : Row) : Grid.clear.cell x y = false := by
  simp [Grid.clear, Grid.cell]

theorem Grid.ext_cell {g h : Grid} (e : ∀ x y, g.cell x y = h.cell x y) : g = h := by
  ext i hi j hj
  exact e ⟨i, hi⟩ ⟨j, hj⟩

/-- Whether the row byte `b`, drawn with its left edge at column `x0`, has its set bit on column `x`. -/
def rowCovers (b : Byte) (x0 : Nat) (x : Column) : Bool :=
  [0, 1, 2, 3, 4, 5, 6, 7].any fun c => b.getLsbD (7 - c) && decide (columnOf (x0 + c) = x)

/-- Drawing columns one after the other: a cell is turned over if one of the columns lies on it with its bit set, and the
flag is raised if such a cell was lit. The columns are different ones modulo 64. -/
theorem foldl_plotPixel (bit : Nat → Bool) (x0 y : Nat) (cols : List Nat)
    (hne : cols.Pairwise fun c d => (x0 + c) % 64 ≠ (x0 + d) % 64) (canvas : Canvas) :
    let out := cols.foldl (fun acc c => if bit c then plotPixel (x0 + c) y acc else acc) canvas
    (∀ x y', out.1.cell x y' =
      (canvas.1.cell x y' ^^
        (decide (rowOf y = y') && cols.any fun c => bit c && decide (columnOf (x0 + c) = x)))) ∧
    out.2 = (canvas.2 || cols.any fun c => bit c && canvas.1.cell (columnOf (x0 + c)) (rowOf y)) := by
  induction cols generalizing canvas with
  | nil => simp
  | cons c cs ih =>
    obtain ⟨hc, hcs⟩ := List.pairwise_cons.mp hne
    have ih' := ih hcs (if bit c then plotPixel (x0 + c) y canvas else canvas)
    have hoff : ∀ d ∈ cs, columnOf (x0 + c) ≠ columnOf (x0 + d) := by
      intro d hd e
      exact hc d hd (congrArg Fin.val e)
    simp only [List.foldl_cons, List.any_cons]
    refine ⟨fun x y' => ?_, ?_⟩
    · rw [ih'.1 x y']
      by_cases hb : bit c
      · simp only [hb, if_true, plotPixel, Grid.cell_toggle, Bool.true_and]
        by_cases hx : columnOf (x0 + c) = x
        · have hnone : (cs.any fun d => bit d && decide (columnOf (x0 + d) = x)) = false := by
            rw [List.any_eq_false]
            intro d hd
            have : columnOf (x0 + d) ≠ x := fun e => hoff d hd (hx.trans e.symm)
            simp [this]
          rw [hnone]
          by_cases hy : rowOf y = y' <;> simp [hx, hy]
        · simp [hx]
      · simp [hb]
    · rw [ih'.2]
      by_cases hb : bit c
      · simp only [hb, if_true, plotPixel, Bool.true_and, Bool.or_assoc]
        congr 2
        rw [Bool.eq_iff_iff, List.any_eq_true, List.any_eq_true]
        constructor <;> rintro ⟨d, hd, hv⟩ <;> refine ⟨d, hd, ?_⟩ <;>
          simpa [Grid.cell_toggle, hoff d hd] using hv
      · simp [hb]

theorem columns_distinct (x0 : Nat) :
    [0, 1, 2, 3, 4, 5, 6, 7].Pairwise fun c d => (x0 + c) % 64 ≠ (x0 + d) % 64 := by
  simp only [List.pairwise_cons, List.mem_cons, List.not_mem_nil, or_false, forall_eq_or_imp, forall_eq,
    false_imp_iff, implies_true, List.Pairwise.nil, and_true]
  omega

/-- One row drawn: the cells it turns over, and whether one of them was lit. -/
theorem drawRow_spec (b : Byte) (x0 y : Nat) (canvas : Canvas) :
    (∀ x y', (drawRow b x0 y canvas).1.cell x y' =
      (canvas.1.cell x y' ^^ (decide (rowOf y = y') && rowCovers b x0 x))) ∧
    ((drawRow b x0 y canvas).2 = true ↔
      canvas.2 = true ∨ ∃ x, rowCovers b x0 x = true ∧ canvas.1.cell x (rowOf y) = true) := by
  have h := foldl_plotPixel (fun c => b.getLsbD (7 - c)) x0 y [0, 1, 2, 3, 4, 5, 6, 7] (columns_distinct x0) canvas
  refine ⟨h.1, ?_⟩
  have h2 : (drawRow b x0 y canvas).2 = _ := h.2
  rw [h2, Bool.or_eq_true, List.any_eq_true]
  refine or_congr_right ⟨?_, ?_⟩
  · rintro ⟨c, hc, hv⟩
    simp only [Bool.and_eq_true] at hv
    refine ⟨columnOf (x0 + c), ?_, hv.2⟩
    rw [rowCovers, List.any_eq_true]
    exact ⟨c, hc, by simp [hv.1]⟩
  · rintro ⟨x, hcov, hlit⟩
    rw [rowCovers, List.any_eq_true] at hcov
    obtain ⟨c, hc, hv⟩ := hcov
    simp only [Bool.and_eq_true, decide_eq_true_eq] at hv
    exact ⟨c, hc, by simp [hv.1, hv.2, hlit]⟩

/-- Whether the rows `bs`, drawn from `(x0, y0)`, have a set bit on the cell `(x, y)`. -/
def spriteCovers : List Byte → Nat → Nat → Column → Row → Bool
  | [], _, _, _, _ => false
  | b :: bs, x0, y0, x, y => (decide (rowOf y0 = y) && rowCovers b x0 x) || spriteCovers bs x0 (y0 + 1) x y

/-- Rows below the first lie on other rows of the grid, while there are at most 32 in all. -/
theorem spriteCovers_below (bs : List Byte) (x0 y0 d : Nat) (x : Column) (hd : 0 < d) (hlen : d + bs.length ≤ 32) :
    spriteCovers bs x0 (y0 + d) x (rowOf y0) = false := by
  induction bs generalizing d with
  | nil => rfl
  | cons b bs ih =>
    simp only [List.length_cons] at hlen
    have hne : rowOf (y0 + d) ≠ rowOf y0 := by
      intro e
      have : (y0 + d) % 32 = y0 % 32 := congrArg Fin.val e
      omega
    rw [spriteCovers, show y0 + d + 1 = y0 + (d + 1) by omega, ih (d + 1) (by omega) (by omega)]
    simp [hne]

/-- A whole sprite of at most 32 rows drawn (`DXYN` draws at most 15): each cell it covers is turned over and no other,
and the flag is raised exactly where a covered cell was lit (43_display.md R141). -/
theorem drawRows_spec (bs : List Byte) (x0 y0 : Nat) (canvas : Canvas) (hlen : bs.length ≤ 32) :
    (∀ x y, (drawRows bs x0 y0 canvas).1.cell x y = (canvas.1.cell x y ^^ spriteCovers bs x0 y0 x y)) ∧
    ((drawRows bs x0 y0 canvas).2 = true ↔
      canvas.2 = true ∨ ∃ x y, spriteCovers bs x0 y0 x y = true ∧ canvas.1.cell x y = true) := by
  induction bs generalizing y0 canvas with
  | nil => simp [drawRows, spriteCovers]
  | cons b bs ih =>
    simp only [List.length_cons] at hlen
    have hrow := drawRow_spec b x0 y0 canvas
    have hrest := ih (y0 + 1) (drawRow b x0 y0 canvas) (by omega)
    have hbelow : ∀ x, spriteCovers bs x0 (y0 + 1) x (rowOf y0) = false :=
      fun x => spriteCovers_below bs x0 y0 1 x (by omega) (by omega)
    refine ⟨fun x y => ?_, ?_⟩
    · rw [drawRows, hrest.1 x y, hrow.1 x y, spriteCovers]
      by_cases hy : rowOf y0 = y
      · subst hy; simp [hbelow x]
      · simp [hy]
    · rw [drawRows, hrest.2, hrow.2]
      constructor
      · rintro ((h | ⟨x, hcov, hlit⟩) | ⟨x, y, hcov, hlit⟩)
        · exact .inl h
        · exact .inr ⟨x, _, by simp [spriteCovers, hcov], hlit⟩
        · refine .inr ⟨x, y, by simp [spriteCovers, hcov], ?_⟩
          rw [hrow.1 x y] at hlit
          by_cases hy : rowOf y0 = y
          · subst hy; simp [hbelow x] at hcov
          · simpa [hy] using hlit
      · rintro (h | ⟨x, y, hcov, hlit⟩)
        · exact .inl (.inl h)
        · simp only [spriteCovers, Bool.or_eq_true, Bool.and_eq_true, decide_eq_true_eq] at hcov
          rcases hcov with ⟨rfl, hcov⟩ | hcov
          · exact .inl (.inr ⟨x, hcov, hlit⟩)
          · refine .inr ⟨x, y, hcov, ?_⟩
            rw [hrow.1 x y]
            by_cases hy : rowOf y0 = y
            · subst hy; simp [hbelow x] at hcov
            · simpa [hy] using hlit

end Sys2Proof.Machine
end

