-- ==== Sys2Proof/Laws/Memory.lean ====
section
/-!
SUPPORT. The laws of memory: a read after a write, the canonical form kept by every operation, equal reads give equal
memories, and what a run of bytes stored or loaded is.
-/

namespace Sys2Proof.Machine

/-! ### Masking -/

theorem maskAddr_eq_mod (a : Nat) : maskAddr a = a % 4096 := by
  rw [maskAddr, show 0x0FFF = 2 ^ 12 - 1 by decide, Nat.and_two_pow_sub_one_eq_mod]

theorem maskAddr_lt (a : Nat) : maskAddr a < 4096 := by
  rw [maskAddr_eq_mod]; omega

@[simp] theorem maskAddr_maskAddr (a : Nat) : maskAddr (maskAddr a) = maskAddr a := by
  simp [maskAddr_eq_mod]

/-! ### One byte -/

theorem Memory.get_cons (a c : Nat) (v : Byte) (rest : Memory) (h : Memory.get rest a = resetByte a)
    (hlt : c < a → Memory.get rest c = resetByte c) :
    Memory.get (Memory.cons a v rest) c = if a = c then v else Memory.get rest c := by
  unfold Memory.cons
  by_cases hv : v = resetByte a <;> by_cases hac : a = c
  · subst hac; simp [hv, h]
  · simp [hv, hac]
  · subst hac; simp [hv, Memory.get]
  · have : ¬ c = a := fun e => hac e.symm
    simp only [hv, hac, if_false, Memory.get, this]
    by_cases hc : c < a
    · simp [hc, hlt hc]
    · simp [hc]

/-- Below the first address of a memory in canonical form every byte reads as unlisted. -/
theorem Memory.get_of_lt {m : Memory} {lo : Nat} (hm : Memory.wfFrom lo m) {a : Nat} (h : a < lo) :
    Memory.get m a = resetByte a := by
  cases m with
  | nil => rfl
  | cons p rest =>
    obtain ⟨b, w⟩ := p
    simp only [Memory.wfFrom, Bool.and_eq_true, decide_eq_true_eq] at hm
    have h1 : ¬ a = b := by omega
    have h2 : a < b := by omega
    simp [Memory.get, h1, h2]

theorem Memory.wfFrom_mono {m : Memory} {lo hi : Nat} (hm : Memory.wfFrom hi m) (h : lo ≤ hi) :
    Memory.wfFrom lo m := by
  cases m with
  | nil => rfl
  | cons p rest =>
    obtain ⟨b, w⟩ := p
    simp only [Memory.wfFrom, Bool.and_eq_true, decide_eq_true_eq] at hm ⊢
    exact ⟨⟨⟨by omega, hm.1.1.2⟩, hm.1.2⟩, hm.2⟩

theorem Memory.wfFrom_cons {a lo : Nat} {v : Byte} {rest : Memory} (hr : Memory.wfFrom (a + 1) rest)
    (ha : a < 4096) (hlo : lo ≤ a) : Memory.wfFrom lo (Memory.cons a v rest) := by
  unfold Memory.cons
  split
  · exact Memory.wfFrom_mono hr (by omega)
  · rename_i hv
    simp [Memory.wfFrom, hlo, ha, hv, hr, Config.memSize]

theorem Memory.wfFrom_set {m : Memory} {lo : Nat} (hm : Memory.wfFrom lo m) {a : Nat} (ha : a < 4096) (hlo : lo ≤ a)
    (v : Byte) : Memory.wfFrom lo (Memory.set m a v) := by
  induction m generalizing lo with
  | nil => exact Memory.wfFrom_cons rfl ha hlo
  | cons p rest ih =>
    obtain ⟨b, w⟩ := p
    have hm' := hm
    simp only [Memory.wfFrom, Bool.and_eq_true, decide_eq_true_eq] at hm
    obtain ⟨⟨⟨h1, h2⟩, h3⟩, h4⟩ := hm
    unfold Memory.set
    split
    · rename_i hab; subst hab; exact Memory.wfFrom_cons h4 ha hlo
    · split
      · rename_i hab hlt
        refine Memory.wfFrom_cons ?_ ha hlo
        simp [Memory.wfFrom, h2, h3, h4]; omega
      · simp only [Memory.wfFrom, Bool.and_eq_true, decide_eq_true_eq]
        exact ⟨⟨⟨h1, h2⟩, h3⟩, ih h4 (by omega)⟩

/-- Writing one byte keeps the canonical form. -/
theorem Memory.write_wf {m : Memory} (hm : Memory.wf m) (addr : Nat) (v : Byte) : Memory.wf (Memory.write m addr v) :=
  Memory.wfFrom_set hm (maskAddr_lt addr) (Nat.zero_le _) v

/-- A read after a write, at addresses of the 4096: the value written there, every other byte as before. No canonical
form is needed but the rising of the addresses, which the hypothesis gives. -/
theorem Memory.get_set {m : Memory} {lo : Nat} (hm : Memory.wfFrom lo m) (a c : Nat) (v : Byte) :
    Memory.get (Memory.set m a v) c = if a = c then v else Memory.get m c := by
  induction m generalizing lo with
  | nil =>
    simp only [Memory.set]
    exact Memory.get_cons a c v [] rfl (fun _ => rfl)
  | cons p rest ih =>
    obtain ⟨b, w⟩ := p
    have hm' := hm
    simp only [Memory.wfFrom, Bool.and_eq_true, decide_eq_true_eq] at hm
    obtain ⟨⟨⟨h1, h2⟩, h3⟩, h4⟩ := hm
    unfold Memory.set
    split
    · rename_i hab; subst hab
      rw [Memory.get_cons a c v rest (Memory.get_of_lt h4 (by omega)) (fun h => Memory.get_of_lt h4 (by omega))]
      by_cases hac : a = c
      · simp [hac]
      · have : ¬ c = a := fun e => hac e.symm
        simp only [hac, if_false, Memory.get, this]
        split
        · exact Memory.get_of_lt h4 (by omega)
        · rfl
    · split
      · rename_i hab hlt
        exact Memory.get_cons a c v _ (by simp [Memory.get, hab, hlt])
          (fun h => by
            have e1 : ¬ c = b := by omega
            have e2 : c < b := by omega
            simp [Memory.get, e1, e2])
      · rename_i hab hlt
        simp only [Memory.get, ih h4]
        by_cases hac : a = c
        · subst hac; simp [hab, hlt]
        · simp [hac]

/-- The read law at any addresses, masked: what `MemWrite` wrote `MemRead` reads, and no other byte changes
(20_memory.md R41, R45). -/
theorem Memory.read_write {m : Memory} (hm : Memory.wf m) (a c : Nat) (v : Byte) :
    (Memory.write m a v).read c = if maskAddr a = maskAddr c then v else m.read c :=
  Memory.get_set hm _ _ _

/-- Two memories in canonical form that read alike everywhere are the same list. -/
theorem Memory.ext_get {m n : Memory} {lo : Nat} (hm : Memory.wfFrom lo m) (hn : Memory.wfFrom lo n)
    (h : ∀ a, Memory.get m a = Memory.get n a) : m = n := by
  induction m generalizing lo n with
  | nil =>
    cases n with
    | nil => rfl
    | cons p rest =>
      obtain ⟨b, w⟩ := p
      simp only [Memory.wfFrom, Bool.and_eq_true, decide_eq_true_eq] at hn
      have := h b
      simp only [Memory.get, if_true] at this
      exact absurd this.symm hn.1.2
  | cons p rest ih =>
    obtain ⟨b, w⟩ := p
    simp only [Memory.wfFrom, Bool.and_eq_true, decide_eq_true_eq] at hm
    cases n with
    | nil =>
      have := h b
      simp only [Memory.get, if_true] at this
      exact absurd this hm.1.2
    | cons q rest' =>
      obtain ⟨c, u⟩ := q
      simp only [Memory.wfFrom, Bool.and_eq_true, decide_eq_true_eq] at hn
      have hbc : b = c := by
        by_contra hne
        rcases Nat.lt_or_gt_of_ne hne with hlt | hlt
        · have := h b
          simp only [Memory.get, if_true, hne, if_false, hlt] at this
          exact hm.1.2 this
        · have := h c
          have hne' : ¬ c = b := fun e => hne e.symm
          simp only [Memory.get, if_true, hne', if_false, hlt] at this
          exact hn.1.2 this.symm
      subst hbc
      have hw : w = u := by simpa [Memory.get] using h b
      subst hw
      have hrest : rest = rest' := by
        refine ih hm.2 hn.2 fun a => ?_
        by_cases hab : a ≤ b
        · rw [Memory.get_of_lt hm.2 (by omega), Memory.get_of_lt hn.2 (by omega)]
        · have h1 : ¬ a = b := by omega
          have h2 : ¬ a < b := by omega
          simpa [Memory.get, h1, h2] using h a
      rw [hrest]

/-! ### Runs of bytes -/

/-- Storing bytes keeps the canonical form. -/
theorem Memory.storeBytes_wf {m : Memory} (hm : Memory.wf m) (addr : Nat) (bs : List Byte) :
    Memory.wf (m.storeBytes addr bs) := by
  induction bs generalizing m addr with
  | nil => exact hm
  | cons b bs ih => exact ih (Memory.write_wf hm addr b) (addr + 1)

/-- How far the masked address of `c` lies above that of `addr`, going up and wrapping at 4096. -/
def offsetFrom (addr c : Nat) : Nat := (c % 4096 + (4096 - addr % 4096)) % 4096

/-- What a run of stored bytes leaves at every address: the byte stored there if the address is in the run, else the byte
that was there. Runs of at most 4096 bytes; the longest an instruction stores is 16 (20_memory.md R53). -/
theorem Memory.read_storeBytes {m : Memory} (hm : Memory.wf m) (addr c : Nat) (bs : List Byte)
    (hlen : bs.length ≤ 4096) :
    (m.storeBytes addr bs).read c = bs.getD (offsetFrom addr c) (m.read c) := by
  induction bs generalizing m addr with
  | nil => simp [Memory.storeBytes]
  | cons b bs ih =>
    simp only [List.length_cons] at hlen
    rw [Memory.storeBytes, ih (Memory.write_wf hm addr b) (addr + 1) (by omega), Memory.read_write hm]
    simp only [maskAddr_eq_mod, List.getD_eq_getElem?_getD]
    by_cases h : addr % 4096 = c % 4096
    · have h0 : offsetFrom addr c = 0 := by unfold offsetFrom; omega
      have h1 : offsetFrom (addr + 1) c = 4095 := by unfold offsetFrom; omega
      rw [h0, h1, List.getElem?_eq_none (by omega)]
      simp [h]
    · have h1 : offsetFrom addr c = offsetFrom (addr + 1) c + 1 := by unfold offsetFrom; omega
      rw [h1]
      simp [h]

/-- An address outside the run keeps its byte. -/
theorem Memory.read_storeBytes_of_not_mem {m : Memory} (hm : Memory.wf m) (addr c : Nat) (bs : List Byte)
    (h : ∀ k, k < bs.length → maskAddr (addr + k) ≠ maskAddr c) (hlen : bs.length ≤ 4096) :
    (m.storeBytes addr bs).read c = m.read c := by
  have hlt : offsetFrom addr c < 4096 := by unfold offsetFrom; omega
  rw [Memory.read_storeBytes hm addr c bs hlen, List.getD_eq_getElem?_getD, List.getElem?_eq_none]
  · rfl
  · by_contra hc
    have := h (offsetFrom addr c) (by omega)
    simp only [maskAddr_eq_mod] at this
    unfold offsetFrom at this
    omega

/-- Byte `k` of the run is read back at `addr + k`. -/
theorem Memory.read_storeBytes_of_lt {m : Memory} (hm : Memory.wf m) (addr k : Nat) (bs : List Byte)
    (hk : k < bs.length) (hlen : bs.length ≤ 4096) :
    (m.storeBytes addr bs).read (addr + k) = bs[k] := by
  have h : offsetFrom addr (addr + k) = k := by unfold offsetFrom; omega
  rw [Memory.read_storeBytes hm addr _ bs hlen, h, List.getD_eq_getElem?_getD, List.getElem?_eq_getElem hk]
  rfl

@[simp] theorem Memory.loadBytes_length (m : Memory) (addr n : Nat) : (m.loadBytes addr n).length = n := by
  induction n generalizing addr with
  | zero => rfl
  | succ n ih => simp [Memory.loadBytes, ih]

theorem Memory.loadBytes_getElem? (m : Memory) (addr n k : Nat) :
    (m.loadBytes addr n)[k]? = if k < n then some (m.read (addr + k)) else none := by
  induction n generalizing addr k with
  | zero => simp [Memory.loadBytes]
  | succ n ih =>
    cases k with
    | zero => simp [Memory.loadBytes]
    | succ k =>
      simp only [Memory.loadBytes, List.getElem?_cons_succ, ih]
      have h : addr + 1 + k = addr + (k + 1) := by omega
      simp [h]

end Sys2Proof.Machine
end

