-- ==== Sys2Proof/Laws/Ops.lean ====
section
/-!
SUPPORT. What each shared operation over the stack, the register runs, the keys and the fetched word can do, said once.
-/

namespace Sys2Proof.Machine

/-! ### The return stack -/

/-- A push succeeds exactly where there is room. -/
theorem State.push_isSome (s : State) (w : Word) : (s.push w).isSome = decide (s.sp.val < 16) := by
  unfold State.push; split <;> simp [*]

theorem State.push_full {s : State} (h : s.sp.val = 16) (w : Word) : s.push w = none := by
  unfold State.push; simp [h]

/-- A push that succeeds: the entry at the old `SP`, `SP` one more, nothing else. -/
theorem State.push_cases {s t : State} {w : Word} (h : s.push w = some t) :
    ∃ _ : s.sp.val < 16,
      t = { s with stack := s.stack.set s.sp.val w, sp := ⟨s.sp.val + 1, by omega⟩ } := by
  unfold State.push at h
  split at h
  · rename_i hs; exact ⟨hs, by simpa using h.symm⟩
  · cases h

theorem State.pop_empty {s : State} (h : s.sp.val = 0) : s.pop = none := by
  unfold State.pop; simp [h]

/-- A pop that succeeds: the entry below the old `SP`, `SP` one less, nothing else. -/
theorem State.pop_cases {s t : State} {a : Word} (h : s.pop = some (a, t)) :
    ∃ _ : s.sp.val ≠ 0,
      a = s.stack[s.sp.val - 1]'(by omega) ∧ t = { s with sp := ⟨s.sp.val - 1, by omega⟩ } := by
  unfold State.pop at h
  split at h
  · cases h
  · rename_i hs
    simp only [Option.some.injEq, Prod.mk.injEq] at h
    exact ⟨hs, h.1.symm, h.2.symm⟩

/-- What a push leaves a pop takes back, and the entry stays. -/
theorem State.pop_push {s t : State} {w : Word} (h : s.push w = some t) :
    t.pop = some (w, { s with stack := t.stack }) := by
  obtain ⟨hs, rfl⟩ := State.push_cases h
  simp [State.pop]

/-! ### Runs of registers -/

theorem State.regsUpTo_length (s : State) (x : Reg) : (s.regsUpTo x).length = x.val + 1 := by
  simp [State.regsUpTo]

theorem State.regsUpTo_getElem? (s : State) (x : Reg) (k : Reg) (h : k.val ≤ x.val) :
    (s.regsUpTo x)[k.val]? = some (s.reg k) := by
  have hk : k.val < 16 := k.isLt
  simp [State.regsUpTo, State.reg, Nat.lt_succ_of_le h]

/-- Each register after a run is written: the byte of the run that falls on it, or the value it had. -/
theorem writeRegsFrom_getElem (v : Vector Byte 16) (k : Nat) (bs : List Byte) (r : Reg) :
    (writeRegsFrom v k bs)[r.val] =
      if k ≤ r.val then bs.getD (r.val - k) v[r.val] else v[r.val] := by
  induction bs generalizing v k with
  | nil => simp [writeRegsFrom]
  | cons b bs ih =>
    rw [writeRegsFrom, ih]
    simp only [Vector.getElem_setIfInBounds, List.getD_eq_getElem?_getD]
    by_cases h : k = r.val
    · subst h
      simp
    · by_cases h2 : k ≤ r.val
      · have h3 : k + 1 ≤ r.val := by omega
        have h4 : r.val - k = (r.val - (k + 1)) + 1 := by omega
        simp [h, h2, h3, h4]
      · have h3 : ¬ k + 1 ≤ r.val := by omega
        simp [h, h2, h3]

/-- The registers `V[0..x]` after a load of `x + 1` bytes from `I`, and the others (42_index_memory.md R125). -/
theorem State.loaded_reg (s : State) (x r : Reg) :
    (writeRegsFrom s.v 0 (s.bytesAtIndex (x.val + 1)))[r.val] =
      if r.val ≤ x.val then s.memRead (s.indexAddr + r.val) else s.reg r := by
  rw [writeRegsFrom_getElem]
  simp only [Nat.zero_le, if_true, Nat.sub_zero, State.bytesAtIndex, List.getD_eq_getElem?_getD,
    Memory.loadBytes_getElem?]
  by_cases h : r.val ≤ x.val
  · simp [h, Nat.lt_succ_of_le h, State.memRead]
  · have h2 : ¬ r.val < x.val + 1 := by omega
    simp [h, h2, State.reg]

/-! ### Keys -/

theorem mem_keyScan (k : Key) : k ∈ keyScan := by
  revert k; decide

theorem keyScan_ascending : keyScan.Pairwise (· < ·) := by decide

theorem State.firstKey_none (s : State) : s.firstKey = none ↔ ∀ k, s.keyPressed k = false := by
  simp [State.firstKey, mem_keyScan]

/-- The key `FX0A` finds: pressed, and no lesser one is. -/
theorem State.firstKey_some {s : State} {k : Key} (h : s.firstKey = some k) :
    s.keyPressed k = true ∧ ∀ j, j < k → s.keyPressed j = false := by
  unfold State.firstKey at h
  rw [List.find?_eq_some_iff_append] at h
  obtain ⟨hk, before, after, hsplit, hall⟩ := h
  refine ⟨hk, fun j hj => ?_⟩
  have hmem : j ∈ before := by
    have hj' : j ∈ before ++ k :: after := hsplit ▸ mem_keyScan j
    have hsorted : (before ++ k :: after).Pairwise (· < ·) := hsplit ▸ keyScan_ascending
    rcases List.mem_append.mp hj' with hb | ha
    · exact hb
    · rcases List.mem_cons.mp ha with rfl | ha
      · exact absurd hj (lt_irrefl _)
      · have := List.rel_of_pairwise_cons (List.pairwise_append.mp hsorted).2.1 ha
        exact absurd (lt_trans hj this) (lt_irrefl _)
  simpa using hall j hmem

/-! ### Memory after RESET -/

/-- What RESET leaves in memory: the parameter's bytes in the first 80, zero in every other. -/
theorem State.resetWith_memRead (font : FontData) (a : Nat) :
    (State.resetWith font).memRead a = if h : a % 4096 < 80 then font[a % 4096] else 0 := by
  have hoff : offsetFrom Config.fontBase a = a % 4096 := by unfold offsetFrom Config.fontBase; omega
  rw [State.memRead, State.resetWith_mem, Memory.read_storeBytes rfl _ _ _ (by simp), hoff,
    List.getD_eq_getElem?_getD]
  split
  · rename_i h
    rw [List.getElem?_eq_getElem (by simpa using h)]; simp
  · rename_i h
    rw [List.getElem?_eq_none (by simpa using h), Option.getD_none, Memory.read, maskAddr_eq_mod, Memory.get, resetByte,
      List.getD_eq_default _ _ (Nat.le_of_not_lt h)]

/-! ### The fetched word -/

theorem wordOfBytes_bytesOfWord (op : Word) : wordOfBytes (op.extractLsb' 8 8) (op.extractLsb' 0 8) = op := by
  apply BitVec.eq_of_getLsbD_eq
  intro i hi
  rw [wordOfBytes, BitVec.getLsbD_append]
  grind

/-- A word placed where the fetch reads is the word fetched. -/
theorem State.fetchWord_placeWord {s : State} (hs : Memory.wf s.mem) (op : Word) : (s.placeWord op).fetchWord = op := by
  have h := Memory.read_storeBytes_of_lt hs s.pc.toNat
  have h0 := h 0 (bytesOfWord op) (by simp [bytesOfWord]) (by simp [bytesOfWord])
  have h1 := h 1 (bytesOfWord op) (by simp [bytesOfWord]) (by simp [bytesOfWord])
  simp only [Nat.add_zero] at h0
  simp only [State.fetchWord, State.placeWord, State.memRead, State.setMem_pc, State.setMem_mem, h0, h1]
  exact wordOfBytes_bytesOfWord op

end Sys2Proof.Machine
end

