-- ==== Sys2Proof/Laws/Exec.lean ====
section
/-!
SUPPORT. What a step, a call and a return can do, and what any instruction can do to memory, said once.
-/

namespace Sys2Proof.Machine

/-! ### A step -/

theorem step_of_decode {s : State} {i : Instr} (h : decodeWord s.fetchWord = some i) : step s = exec i s := by
  simp only [step, h]

theorem step_of_unknown {s : State} (h : decodeWord s.fetchWord = none) :
    step s = .fault (.unknownOpcode s.pc s.fetchWord) := by
  simp only [step, h, raiseFault]

/-- A step that ends in a next state ran a decoded instruction. -/
theorem step_next_cases {s t : State} (h : step s = .next t) :
    ∃ i, decodeWord s.fetchWord = some i ∧ exec i s = .next t := by
  cases hd : decodeWord s.fetchWord with
  | none => rw [step_of_unknown hd] at h; cases h
  | some i => exact ⟨i, rfl, by rwa [step_of_decode hd] at h⟩

/-- A run whose first step completes goes on from where that step ends. -/
theorem run_succ (M : Host.Core) (k : Nat) {s t : M.State} (h : M.step s = .next t) : M.run (k + 1) s = M.run k t := by
  rw [Host.Core.run, h]

/-- The same of this machine. -/
theorem core_run_succ (k : Nat) {s t : State} (h : step s = .next t) :
    Sys2Proof.core.run (k + 1) s = Sys2Proof.core.run k t := run_succ Sys2Proof.core k h

/-! ### Call and return -/

/-- `2NNN` either overflows or pushes and jumps. -/
theorem execCall_cases (nnn : BitVec 12) (s : State) :
    (s.sp.val = 16 ∧ execCall nnn s = .fault (.stackOverflow s.pc)) ∨
    (∃ _ : s.sp.val < 16, execCall nnn s = .next
      { s with stack := s.stack.set s.sp.val s.pc, sp := ⟨s.sp.val + 1, by omega⟩, pc := addrOperand nnn }) := by
  by_cases h : s.sp.val < 16
  · exact .inr ⟨h, by simp [execCall, State.push, h, State.setPc]⟩
  · have h16 : s.sp.val = 16 := by omega
    exact .inl ⟨h16, by simp [execCall, State.push_full h16, raiseFault]⟩

/-- `00EE` either underflows or pops and returns. -/
theorem execRet_cases (s : State) :
    (s.sp.val = 0 ∧ execRet s = .fault (.stackUnderflow s.pc)) ∨
    (∃ _ : s.sp.val ≠ 0, execRet s = .next
      { s with sp := ⟨s.sp.val - 1, by omega⟩, pc := s.stack[s.sp.val - 1]'(by omega) + 2 }) := by
  by_cases h : s.sp.val = 0
  · exact .inl ⟨h, by simp [execRet, State.pop_empty h, raiseFault]⟩
  · exact .inr ⟨h, by simp [execRet, State.pop, h, State.setPc]⟩

/-! ### Memory -/

/-- What any instruction can do to memory: leave it, or store a run of bytes from `I`. -/
theorem exec_mem {i : Instr} {s t : State} (h : exec i s = .next t) :
    t.mem = s.mem ∨ ∃ bs, t.mem = s.mem.storeBytes s.indexAddr bs := by
  cases i with
  | call nnn =>
    rcases execCall_cases nnn s with ⟨_, hc⟩ | ⟨_, hc⟩ <;> rw [exec, hc] at h <;> cases h
    exact .inl rfl
  | ret =>
    rcases execRet_cases s with ⟨_, hc⟩ | ⟨_, hc⟩ <;> rw [exec, hc] at h <;> cases h
    exact .inl rfl
  | ldVxK x =>
    rw [exec, execLdVxK] at h
    split at h <;> cases h <;> exact .inl rfl
  | rnd x nn => cases h; exact .inl (by simp)
  | ldB x => cases h; exact .inr ⟨_, rfl⟩
  | ldMemVx x => cases h; exact .inr ⟨_, rfl⟩
  | _ => cases h; exact .inl rfl

end Sys2Proof.Machine
end

