-- ==== Sys2Proof/Laws/PerInstr.lean ====
section
/-!
SUPPORT. Per-instruction laws of the syntax. Family `EncodedRow`: the word of an instruction matches the row of the opcode
map the instruction stands for, and that row is one of the 34 (30_encoding.md R64, R65).
-/

namespace Sys2Proof.Laws.EncodedRow

/-- The encoded word matches the instruction's own row of the opcode map. -/
def Statement (i : Instr) : Prop := (opcodeRow i).matchesWord (encode i) = true ∧ opcodeRow i ∈ opcodeMap

theorem cls : Statement (.cls) := by
  unfold Statement; decide

theorem ret : Statement (.ret) := by
  unfold Statement; decide

theorem jp (nnn : BitVec 12) : Statement (.jp nnn) :=
  ⟨beq_iff_eq.mpr ((Sys2Proof.packNNN_mask ..).trans rfl), by simp only [opcodeRow]; decide⟩

theorem call (nnn : BitVec 12) : Statement (.call nnn) :=
  ⟨beq_iff_eq.mpr ((Sys2Proof.packNNN_mask ..).trans rfl), by simp only [opcodeRow]; decide⟩

theorem seImm (x : Reg) (nn : Byte) : Statement (.seImm x nn) :=
  ⟨beq_iff_eq.mpr ((Sys2Proof.packXNN_maskH ..).trans rfl), by simp only [opcodeRow]; decide⟩

theorem sneImm (x : Reg) (nn : Byte) : Statement (.sneImm x nn) :=
  ⟨beq_iff_eq.mpr ((Sys2Proof.packXNN_maskH ..).trans rfl), by simp only [opcodeRow]; decide⟩

theorem seReg (x y : Reg) : Statement (.seReg x y) :=
  ⟨beq_iff_eq.mpr ((Sys2Proof.packXYN_mask ..).trans rfl), by simp only [opcodeRow]; decide⟩

theorem ldImm (x : Reg) (nn : Byte) : Statement (.ldImm x nn) :=
  ⟨beq_iff_eq.mpr ((Sys2Proof.packXNN_maskH ..).trans rfl), by simp only [opcodeRow]; decide⟩

theorem addImm (x : Reg) (nn : Byte) : Statement (.addImm x nn) :=
  ⟨beq_iff_eq.mpr ((Sys2Proof.packXNN_maskH ..).trans rfl), by simp only [opcodeRow]; decide⟩

theorem ldReg (x y : Reg) : Statement (.ldReg x y) :=
  ⟨beq_iff_eq.mpr ((Sys2Proof.packXYN_mask ..).trans rfl), by simp only [opcodeRow]; decide⟩

theorem orReg (x y : Reg) : Statement (.orReg x y) :=
  ⟨beq_iff_eq.mpr ((Sys2Proof.packXYN_mask ..).trans rfl), by simp only [opcodeRow]; decide⟩

theorem andReg (x y : Reg) : Statement (.andReg x y) :=
  ⟨beq_iff_eq.mpr ((Sys2Proof.packXYN_mask ..).trans rfl), by simp only [opcodeRow]; decide⟩

theorem xorReg (x y : Reg) : Statement (.xorReg x y) :=
  ⟨beq_iff_eq.mpr ((Sys2Proof.packXYN_mask ..).trans rfl), by simp only [opcodeRow]; decide⟩

theorem addReg (x y : Reg) : Statement (.addReg x y) :=
  ⟨beq_iff_eq.mpr ((Sys2Proof.packXYN_mask ..).trans rfl), by simp only [opcodeRow]; decide⟩

theorem sub (x y : Reg) : Statement (.sub x y) :=
  ⟨beq_iff_eq.mpr ((Sys2Proof.packXYN_mask ..).trans rfl), by simp only [opcodeRow]; decide⟩

theorem shr (x y : Reg) : Statement (.shr x y) :=
  ⟨beq_iff_eq.mpr ((Sys2Proof.packXYN_mask ..).trans rfl), by simp only [opcodeRow]; decide⟩

theorem subn (x y : Reg) : Statement (.subn x y) :=
  ⟨beq_iff_eq.mpr ((Sys2Proof.packXYN_mask ..).trans rfl), by simp only [opcodeRow]; decide⟩

theorem shl (x y : Reg) : Statement (.shl x y) :=
  ⟨beq_iff_eq.mpr ((Sys2Proof.packXYN_mask ..).trans rfl), by simp only [opcodeRow]; decide⟩

theorem sneReg (x y : Reg) : Statement (.sneReg x y) :=
  ⟨beq_iff_eq.mpr ((Sys2Proof.packXYN_mask ..).trans rfl), by simp only [opcodeRow]; decide⟩

theorem ldI (nnn : BitVec 12) : Statement (.ldI nnn) :=
  ⟨beq_iff_eq.mpr ((Sys2Proof.packNNN_mask ..).trans rfl), by simp only [opcodeRow]; decide⟩

theorem jpV0 (nnn : BitVec 12) : Statement (.jpV0 nnn) :=
  ⟨beq_iff_eq.mpr ((Sys2Proof.packNNN_mask ..).trans rfl), by simp only [opcodeRow]; decide⟩

theorem rnd (x : Reg) (nn : Byte) : Statement (.rnd x nn) :=
  ⟨beq_iff_eq.mpr ((Sys2Proof.packXNN_maskH ..).trans rfl), by simp only [opcodeRow]; decide⟩

theorem drw (x y : Reg) (n : Fin 16) : Statement (.drw x y n) :=
  ⟨beq_iff_eq.mpr ((Sys2Proof.packXYN_maskH ..).trans rfl), by simp only [opcodeRow]; decide⟩

theorem skp (x : Reg) : Statement (.skp x) :=
  ⟨beq_iff_eq.mpr ((Sys2Proof.packXNN_mask ..).trans rfl), by simp only [opcodeRow]; decide⟩

theorem sknp (x : Reg) : Statement (.sknp x) :=
  ⟨beq_iff_eq.mpr ((Sys2Proof.packXNN_mask ..).trans rfl), by simp only [opcodeRow]; decide⟩

theorem ldVxDt (x : Reg) : Statement (.ldVxDt x) :=
  ⟨beq_iff_eq.mpr ((Sys2Proof.packXNN_mask ..).trans rfl), by simp only [opcodeRow]; decide⟩

theorem ldVxK (x : Reg) : Statement (.ldVxK x) :=
  ⟨beq_iff_eq.mpr ((Sys2Proof.packXNN_mask ..).trans rfl), by simp only [opcodeRow]; decide⟩

theorem ldDtVx (x : Reg) : Statement (.ldDtVx x) :=
  ⟨beq_iff_eq.mpr ((Sys2Proof.packXNN_mask ..).trans rfl), by simp only [opcodeRow]; decide⟩

theorem ldStVx (x : Reg) : Statement (.ldStVx x) :=
  ⟨beq_iff_eq.mpr ((Sys2Proof.packXNN_mask ..).trans rfl), by simp only [opcodeRow]; decide⟩

theorem addI (x : Reg) : Statement (.addI x) :=
  ⟨beq_iff_eq.mpr ((Sys2Proof.packXNN_mask ..).trans rfl), by simp only [opcodeRow]; decide⟩

theorem ldF (x : Reg) : Statement (.ldF x) :=
  ⟨beq_iff_eq.mpr ((Sys2Proof.packXNN_mask ..).trans rfl), by simp only [opcodeRow]; decide⟩

theorem ldB (x : Reg) : Statement (.ldB x) :=
  ⟨beq_iff_eq.mpr ((Sys2Proof.packXNN_mask ..).trans rfl), by simp only [opcodeRow]; decide⟩

theorem ldMemVx (x : Reg) : Statement (.ldMemVx x) :=
  ⟨beq_iff_eq.mpr ((Sys2Proof.packXNN_mask ..).trans rfl), by simp only [opcodeRow]; decide⟩

theorem ldVxMem (x : Reg) : Statement (.ldVxMem x) :=
  ⟨beq_iff_eq.mpr ((Sys2Proof.packXNN_mask ..).trans rfl), by simp only [opcodeRow]; decide⟩

end Sys2Proof.Laws.EncodedRow
end

