-- ==== Sys2Proof/Tests/Slice0.lean ====
section
/-!
SUPPORT. The model's own tests. Expected values are the spec's: the words written out from the patterns of
30_encoding.md R65, the vectors of 95_test_vectors.md (its section named at each group); and, for each statement with
hypotheses, a witness that meets them, at the boundaries where its clauses meet.
-/

namespace Sys2Proof.Tests

open Sys2Proof Sys2Proof.Machine

/-! ### Helpers -/

/-- The outcome is a next state with a property. -/
def next (o : Result) (p : State → Bool) : Bool :=
  match o with
  | .next t => p t
  | .fault _ => false
  | .refused _ => false

/-- The outcome is this fault. -/
def faults (o : Result) (f : Fault) : Bool :=
  match o with
  | .next _ => false
  | .fault g => g == f
  | .refused _ => false

/-- A command ends with a property of the state and of what it returns. -/
def ends (o : Host.Outcome (State × Response) Fault Refusal) (p : State → Response → Bool) : Bool :=
  match o with
  | .next (t, r) => p t r
  | .fault _ => false
  | .refused _ => false

/-- A command is refused with this reason. -/
def refuses (o : Host.Outcome (State × Response) Fault Refusal) (e : Refusal) : Bool :=
  match o with
  | .next _ => false
  | .fault _ => false
  | .refused d => d == e

/-- A step's report. -/
def reported (r : Response) (result : StepResult) (redraw : Bool) : Bool :=
  match r with
  | .stepped a b => a == result && b == redraw
  | .done => false
  | .snapshot _ => false
  | .dump _ => false

/-- The state with registers set. -/
def regs (l : List (Reg × Byte)) (s : State) : State := l.foldl (fun t p => t.setReg p.1 p.2) s

/-- The state with bytes of memory set from an address. -/
def bytes (a : Nat) (l : List Byte) (s : State) : State := s.setMem (s.mem.storeBytes a l)

/-- The state with one cell lit. -/
def lit (x : Column) (y : Row) (s : State) : State := s.setFb (s.fb.toggle x y)

/-- The state with a stack of some depth and one entry of it set. -/
def stacked (sp : Fin 17) (k : Fin 16) (w : Word) (s : State) : State :=
  { s with sp := sp, stack := s.stack.set k.val w }

/-- One step of the state with a word where it fetches. -/
def one (op : Word) (s : State) : Result := step (s.placeWord op)

/-- A decode of bytes gives this instruction. -/
def gives (bs : List Byte) (i : Instr) : Bool :=
  match decode bs with
  | .ok j => j == i
  | .error _ => false

/-- A decode of bytes is refused for this reason. -/
def rejects (bs : List Byte) (e : DecodeReject) : Bool :=
  match decode bs with
  | .ok _ => false
  | .error d => d == e

/-! ### Well-formedness: ill-formed terms are refused -/

theorem test_wellformed_load : loadFits (List.replicate 3584 0) = true := by
  rw [loadFits, List.length_replicate]; decide
theorem test_illformed_load : (Command.load (List.replicate 3585 0)).wellFormed = false := by
  rw [Command.wellFormed, loadFits, List.length_replicate]; decide
theorem test_wellformed_setKey : keyIndexInRange 15 = true := by decide
theorem test_illformed_setKey : (Command.setKey 16 true).wellFormed = false := by decide
theorem test_illformed_memory_not_rising : Memory.wf [(0x301, 1), (0x300, 2)] = false := by decide
theorem test_illformed_memory_repeat : Memory.wf [(0x300, 1), (0x300, 2)] = false := by decide
theorem test_illformed_memory_default : Memory.wf [(0x000, 0xF0)] = false ∧ Memory.wf [(0x050, 0)] = false := by decide
theorem test_illformed_memory_address : Memory.wf [(4096, 1)] = false ∧ Memory.wf [(4095, 1)] = true := by decide

/-! ### Decoding: one word for each instruction, written out bit by bit from the patterns of R65 -/

theorem test_decode_display_and_return :
    decodeWord 0b0000000011100000 = some .cls ∧ decodeWord 0b0000000011101110 = some .ret := by decide
theorem test_decode_jumps :
    decodeWord 0b0001001000110100 = some (.jp 0x234) ∧ decodeWord 0b0010101111001101 = some (.call 0xBCD) ∧
    decodeWord 0b1011111111111110 = some (.jpV0 0xFFE) := by decide
theorem test_decode_skips :
    decodeWord 0b0011000100110100 = some (.seImm 1 0x34) ∧ decodeWord 0b0100001011110000 = some (.sneImm 2 0xF0) ∧
    decodeWord 0b0101001101000000 = some (.seReg 3 4) ∧ decodeWord 0b1001101010110000 = some (.sneReg 10 11) := by decide
theorem test_decode_immediates :
    decodeWord 0b0110101001000010 = some (.ldImm 10 0x42) ∧ decodeWord 0b0111000111111111 = some (.addImm 1 0xFF) ∧
    decodeWord 0b1100001100001111 = some (.rnd 3 0x0F) := by decide
theorem test_decode_family_8_logic :
    decodeWord 0b1000000100100000 = some (.ldReg 1 2) ∧ decodeWord 0b1000001000010001 = some (.orReg 2 1) ∧
    decodeWord 0b1000111100100010 = some (.andReg 15 2) ∧ decodeWord 0b1000000111110011 = some (.xorReg 1 15) := by decide
theorem test_decode_family_8_arithmetic :
    decodeWord 0b1000000100100100 = some (.addReg 1 2) ∧ decodeWord 0b1000111100100101 = some (.sub 15 2) ∧
    decodeWord 0b1000000111110110 = some (.shr 1 15) ∧ decodeWord 0b1000000100100111 = some (.subn 1 2) ∧
    decodeWord 0b1000100000001110 = some (.shl 8 0) := by decide
theorem test_decode_index_and_draw :
    decodeWord 0b1010001100000000 = some (.ldI 0x300) ∧ decodeWord 0b1101000100101111 = some (.drw 1 2 15) := by decide
theorem test_decode_family_E :
    decodeWord 0b1110010110011110 = some (.skp 5) ∧ decodeWord 0b1110010110100001 = some (.sknp 5) := by decide
theorem test_decode_family_F_timers :
    decodeWord 0b1111001100000111 = some (.ldVxDt 3) ∧ decodeWord 0b1111011000001010 = some (.ldVxK 6) ∧
    decodeWord 0b1111010100010101 = some (.ldDtVx 5) ∧ decodeWord 0b1111000000011000 = some (.ldStVx 0) := by decide
theorem test_decode_family_F_memory :
    decodeWord 0b1111001000011110 = some (.addI 2) ∧ decodeWord 0b1111010000101001 = some (.ldF 4) ∧
    decodeWord 0b1111001100110011 = some (.ldB 3) ∧ decodeWord 0b1111111101010101 = some (.ldMemVx 15) ∧
    decodeWord 0b1111000101100101 = some (.ldVxMem 1) := by decide

/-- 95_test_vectors.md 2.1, the words marked U. -/
theorem test_unknown_words :
    ([0x0000, 0x00E1, 0x00EF, 0x00FE, 0x0123, 0x01E0, 0x0FFF, 0x5121, 0x512F, 0x9AB8, 0x8008, 0x8009, 0x800A, 0x800F,
      0xE000, 0xE09D, 0xE19F, 0xE5A0, 0xF000, 0xF075, 0xF085, 0xF002, 0xF0FF, 0xF130, 0xFFFF] : List Word).all
      (fun op => (decodeWord op).isNone) = true := by decide

/-- Big-endian (R42), by name where it is no instruction. -/
theorem test_decode_bytes :
    gives [0x12, 0x34] (.jp 0x234) ∧ gives [0xF1, 0x65, 0xFF] (.ldVxMem 1) ∧
    rejects [0x12] .truncated ∧ rejects [] .truncated ∧ rejects [0x80, 0x08] (.unknownOpcode 0x8008) := by decide

theorem test_decodeTableWord :
    decodeTableWord 16 0x8126 = some (.shr 1 2) ∧ decodeTableWord 16 0x00FF = none := by decide

theorem test_encode :
    encode (.drw 0 1 2) = 0xD012 ∧ encode (.ldMemVx 3) = 0xF355 ∧ encodeBytes (.call 0x20A) = [0x22, 0x0A] := by decide

/-! ### Fetch and faults (95_test_vectors.md 2.1, 2.8) -/

theorem test_fetch_odd_pc :
    next (step (bytes 0x201 [0x6A, 0x42] (State.reset.setPc 0x201))) (fun t => t.reg 10 == 0x42 && t.pc == 0x203) := by
  decide
theorem test_fetch_wraps_at_top :
    next (step (bytes 0xFFF [0x6A, 0x42] (State.reset.setPc 0xFFF)))
      (fun t => t.reg 10 == 0x42 && t.pc == 0x1001 && t.memRead 0 == 0x42) := by decide
theorem test_fetch_masks_pc :
    next (step (bytes 0x200 [0x6A, 0x42] (State.reset.setPc 0x1200))) (fun t => t.pc == 0x1202) := by decide
theorem test_pc_wraps :
    next (step (bytes 0xFFE [0x6A, 0x42] (State.reset.setPc 0xFFFE))) (fun t => t.pc == 0) := by decide
theorem test_step_after_reset_faults : faults (step State.reset) (.unknownOpcode 0x200 0) := by decide
theorem test_step_after_reset_reports :
    ends (commandStep 0 State.reset) (fun t r => t.pc == 0x200 && reported r (.fault (.unknownOpcode 0x200 0)) false) := by
  decide
theorem test_fault_codes :
    (faultCode (.unknownOpcode 0 0), faultCode (.stackOverflow 0), faultCode (.stackUnderflow 0)) = (1, 2, 3) ∧
    faultInfo (.unknownOpcode 0x200 0xE59F) = (0x200, some 0xE59F) ∧ faultInfo (.stackOverflow 0x400) = (0x400, none) := by
  decide

/-! ### Control transfer (95_test_vectors.md 2.2) -/

theorem test_ret :
    next (one 0x00EE (stacked 1 0 0x0204 (State.reset.setPc 0x20C)))
      (fun t => t.sp == 0 && t.pc == 0x206 && t.stack[0] == 0x204) := by decide
theorem test_ret_from_full_stack :
    next (one 0x00EE (stacked 16 15 0xFFFE (State.reset.setPc 0x300))) (fun t => t.sp == 15 && t.pc == 0) := by
  decide
theorem test_ret_underflow : faults (one 0x00EE State.reset) (.stackUnderflow 0x200) := by decide
theorem test_jp : next (one 0x1FFF State.reset) (fun t => t.pc == 0xFFF) := by decide
theorem test_call :
    next (one 0x220A (State.reset.setPc 0x204)) (fun t => t.stack[0] == 0x204 && t.sp == 1 && t.pc == 0x20A) := by
  decide
theorem test_call_fills_stack :
    next (one 0x2300 (stacked 15 0 0 (State.reset.setPc 0x400))) (fun t => t.stack[15] == 0x400 && t.sp == 16) := by
  decide
theorem test_call_overflow :
    faults (one 0x2300 (stacked 16 0 0 (State.reset.setPc 0x400))) (.stackOverflow 0x400) := by decide
theorem test_se_imm :
    next (one 0x3100 (State.reset.setPc 0x208)) (fun t => t.pc == 0x20C) ∧
    next (one 0x3100 (regs [(1, 4)] (State.reset.setPc 0x208))) (fun t => t.pc == 0x20A) := by decide
theorem test_sne_imm :
    next (one 0x4211 (regs [(2, 0x10)] (State.reset.setPc 0x300))) (fun t => t.pc == 0x304) ∧
    next (one 0x4210 (regs [(2, 0x10)] (State.reset.setPc 0x300))) (fun t => t.pc == 0x302) := by decide
theorem test_se_reg :
    next (one 0x5340 (regs [(3, 0x7F), (4, 0x7F)] (State.reset.setPc 0x210))) (fun t => t.pc == 0x214) ∧
    next (one 0x5340 (regs [(3, 0x7F)] (State.reset.setPc 0x210))) (fun t => t.pc == 0x212) := by decide
theorem test_sne_reg :
    next (one 0x9340 (regs [(3, 1), (4, 2)] (State.reset.setPc 0x210))) (fun t => t.pc == 0x214) ∧
    next (one 0x9330 (regs [(3, 1)] (State.reset.setPc 0x210))) (fun t => t.pc == 0x212) := by decide
theorem test_jp_v0 :
    next (one 0xBFFF (regs [(0, 3), (15, 9)] State.reset)) (fun t => t.pc == 0x1002 && t.reg 15 == 9) := by decide

/-! ### Load, arithmetic, logic (95_test_vectors.md 2.3; 41_load_alu.md) -/

theorem test_ld_imm : next (one 0x6A42 State.reset) (fun t => t.reg 10 == 0x42 && t.pc == 0x202) := by decide
theorem test_add_imm :
    next (one 0x71FF (regs [(1, 5)] State.reset)) (fun t => t.reg 1 == 4 && t.reg VF == 0) := by decide
theorem test_ld_reg : next (one 0x8120 (regs [(2, 0x9C)] State.reset)) (fun t => t.reg 1 == 0x9C) := by decide
theorem test_or : next (one 0x8121 (regs [(1, 0xF0), (2, 0x0F)] State.reset)) (fun t => t.reg 1 == 0xFF) := by
  decide
theorem test_and : next (one 0x8122 (regs [(1, 0xF3), (2, 0x3C)] State.reset)) (fun t => t.reg 1 == 0x30) := by
  decide
theorem test_xor : next (one 0x8123 (regs [(1, 0xFF), (2, 0x0F)] State.reset)) (fun t => t.reg 1 == 0xF0) := by
  decide
theorem test_add :
    next (one 0x8124 (regs [(1, 0xFF), (2, 1)] State.reset)) (fun t => t.reg 1 == 0 && t.reg 2 == 1 && t.reg VF == 1) := by
  decide
theorem test_add_vf_operand :
    next (one 0x8F24 (regs [(15, 0xFE), (2, 3)] State.reset)) (fun t => t.reg VF == 4) ∧
    next (one 0x81F4 (regs [(1, 0xF0), (15, 0x20)] State.reset)) (fun t => t.reg 1 == 0xF1 && t.reg VF == 1) := by
  decide
theorem test_sub :
    next (one 0x8125 (regs [(1, 1), (2, 2)] State.reset)) (fun t => t.reg 1 == 0xFF && t.reg VF == 0) ∧
    next (one 0x8125 (regs [(1, 5), (2, 5)] State.reset)) (fun t => t.reg 1 == 0 && t.reg VF == 1) := by decide
theorem test_sub_vf_operand :
    next (one 0x8F25 (regs [(15, 0x10), (2, 3)] State.reset)) (fun t => t.reg VF == 0xFE) := by decide
theorem test_shr : next (one 0x81F6 (regs [(1, 3)] State.reset)) (fun t => t.reg 1 == 1 && t.reg VF == 1) := by
  decide
theorem test_subn :
    next (one 0x8127 (regs [(1, 2), (2, 1)] State.reset)) (fun t => t.reg 1 == 0xFF && t.reg VF == 0) := by decide
theorem test_subn_vf_operand :
    next (one 0x81F7 (regs [(1, 0x10), (15, 0x20)] State.reset)) (fun t => t.reg 1 == 0xF1 && t.reg VF == 1) := by
  decide
theorem test_shl : next (one 0x810E (regs [(1, 0x81)] State.reset)) (fun t => t.reg 1 == 2 && t.reg VF == 1) := by
  decide
theorem test_shl_vf : next (one 0x8F0E (regs [(15, 0x80)] State.reset)) (fun t => t.reg VF == 2) := by decide
theorem test_rnd :
    next (one 0xC30F (State.reset.withRnd 0xA7)) (fun t => t.reg 3 == 7 && t.rndIn == [] && t.draws == 0) := by
  decide
theorem test_rnd_masks_the_free_byte :
    next (one 0xC300 State.reset) (fun t => t.pc == 0x202 && t.draws == 1) := by decide

/-! ### Index register and memory (95_test_vectors.md 2.4) -/

theorem test_ld_i : next (one 0xA300 State.reset) (fun t => t.i == 0x300) := by decide
theorem test_add_i_out_of_range :
    next (one 0xF21E (regs [(2, 1)] (State.reset.setI 0xFFF))) (fun t => t.i == 0x1000 && t.reg VF == 1) ∧
    next (one 0xF21E (regs [(2, 1)] (State.reset.setI 0xFFE))) (fun t => t.i == 0xFFF && t.reg VF == 0) := by
  decide
theorem test_add_i_vf :
    next (one 0xFF1E (regs [(15, 0x40)] (State.reset.setI 0x100))) (fun t => t.i == 0x100 && t.reg VF == 0) := by
  decide
theorem test_ld_f :
    next (one 0xF429 (regs [(4, 0x0A)] State.reset)) (fun t => t.i == 0x32) ∧
    next (one 0xF429 (regs [(4, 0xFF)] State.reset)) (fun t => t.i == 0x4FB) := by decide
theorem test_ld_b :
    next (one 0xF533 (regs [(5, 0x9D)] (State.reset.setI 0x300)))
      (fun t => t.mem.loadBytes 0x300 3 == [1, 5, 7] && t.i == 0x300) := by decide
theorem test_ld_b_wraps :
    next (one 0xF533 (regs [(5, 0xFF)] (State.reset.setI 0xFFF)))
      (fun t => t.memRead 0xFFF == 2 && t.memRead 0 == 5 && t.memRead 1 == 5) := by decide
theorem test_ld_mem_vx :
    next (one 0xF355 (regs [(0, 1), (1, 2), (2, 3), (3, 4)] (State.reset.setI 0x300)))
      (fun t => t.mem.loadBytes 0x300 5 == [1, 2, 3, 4, 0] && t.i == 0x304) := by decide
theorem test_ld_mem_vx_wraps :
    next (one 0xF355 (regs [(0, 0x11), (1, 0x22), (2, 0x33), (3, 0x44)] (State.reset.setI 0xFFE)))
      (fun t => t.memRead 0xFFE == 0x11 && t.memRead 0 == 0x33 && t.memRead 1 == 0x44 && t.i == 0x1002) := by decide
theorem test_ld_vx_mem :
    next (one 0xF365 (bytes 0x300 [1, 2, 3, 4, 5] (regs [(4, 0x77)] (State.reset.setI 0x300))))
      (fun t => t.reg 0 == 1 && t.reg 3 == 4 && t.reg 4 == 0x77 && t.i == 0x304) := by decide
theorem test_ld_vx_mem_wraps :
    next (one 0xF165 (bytes 0xFFF [0xAA] (State.reset.setI 0xFFF)))
      (fun t => t.reg 0 == 0xAA && t.reg 1 == 0xF0 && t.i == 0x1001) := by decide

/-! ### Display (95_test_vectors.md 2.5) -/

theorem test_cls :
    next (one 0x00E0 (lit 3 4 (regs [(15, 7)] State.reset))) (fun t => !t.fb.cell 3 4 && t.reg VF == 7) := by
  decide
theorem test_drw_wraps :
    next (one 0xD011 (bytes 0x300 [0xFF] (regs [(0, 0x3C)] (State.reset.setI 0x300))))
      (fun t => t.fb.cell 60 0 && t.fb.cell 63 0 && t.fb.cell 3 0 && t.reg VF == 0) := by decide
theorem test_drw_collides :
    next (one 0xD011 (lit 0 0 (bytes 0x300 [0xC0] (State.reset.setI 0x300))))
      (fun t => !t.fb.cell 0 0 && t.fb.cell 1 0 && t.reg VF == 1) := by decide

/-! ### Timers and keypad (95_test_vectors.md 2.6) -/

theorem test_ld_vx_dt : next (one 0xF307 (State.reset.setDt 0x2A)) (fun t => t.reg 3 == 0x2A && t.dt == 0x2A) := by
  decide
theorem test_ld_dt_vx : next (one 0xF315 (regs [(3, 0x3C)] State.reset)) (fun t => t.dt == 0x3C && t.st == 0) := by
  decide
theorem test_ld_st_vx : next (one 0xF318 (regs [(3, 5)] State.reset)) (fun t => t.st == 5 && t.dt == 0) := by
  decide
theorem test_skp :
    next (one 0xE59E (regs [(5, 0x17)] (State.reset.setKey 7 true))) (fun t => t.pc == 0x204) ∧
    next (one 0xE59E (regs [(5, 7)] (State.reset.setKey 8 true))) (fun t => t.pc == 0x202) := by decide
theorem test_sknp :
    next (one 0xE5A1 (regs [(5, 0xF0)] (State.reset.setKey 0 true))) (fun t => t.pc == 0x202) ∧
    next (one 0xE5A1 (regs [(5, 0xFF)] State.reset)) (fun t => t.pc == 0x204) := by decide
theorem test_key_wait :
    ends (commandStep 0 ((regs [(6, 0xEE)] State.reset).placeWord 0xF60A))
      (fun t r => t.pc == 0x200 && t.reg 6 == 0xEE && reported r .wait false) := by decide
theorem test_key_wait_ends_with_least_key :
    next (one 0xF60A ((State.reset.setKey 9 true).setKey 3 true)) (fun t => t.reg 6 == 3 && t.pc == 0x202) := by
  decide

/-! ### Host commands (95_test_vectors.md 2.7) -/

/-- Font bytes that are not the default: every byte is 0xA5 but the last, which is 0. -/
def otherFont : FontData := (Vector.replicate 80 0xA5).set 79 0

theorem test_reset_installs_any_font :
    ends (command otherFont .reset (bytes 0x050 [0x77] State.reset)) (fun t _ =>
      t.memRead 0 == 0xA5 && t.memRead 78 == 0xA5 && t.memRead 79 == 0 && t.memRead 0x050 == 0 && t.pc == 0x200) := by
  decide
theorem test_reset_default_font :
    ends (command defaultFont .reset (bytes 0x000 [0x77] State.reset)) (fun t _ =>
      t.mem.isEmpty && t.memRead 0x04B == 0xF0 && t.memRead 0x04F == 0x80) := by decide

theorem test_tick : let t := ((State.reset.setDt 2).setSt 0).tick
    t.dt = 1 ∧ t.st = 0 := by decide
theorem test_load :
    ends (command defaultFont (.load [0x12, 0x00]) State.reset) (fun t _ => t.memRead 0x200 == 0x12 && t.pc == 0x200) := by
  decide
theorem test_redraw :
    ends (commandStep 0 (State.reset.placeWord 0xD010)) (fun _ r => reported r .ok true) ∧
    ends (commandStep 0 (State.reset.placeWord 0x6000)) (fun _ r => reported r .ok false) := by decide
theorem test_withFetchWord :
    next (step (State.reset.withFetchWord 16 0x6A42)) (fun t => t.reg 10 == 0x42) := by decide

/-! ### Witnesses: for each statement with hypotheses, states and operands that meet them -/

/-- A store and a next instruction, for the witnesses below: `word` where `pc` is, memory not the reset memory. -/
def ready (word : Word) : State := (bytes 0x300 [0x80, 0x40] (State.reset.setI 0x300)).placeWord word

/-- A decoded word. -/
def decodes (s : State) (i : Instr) : Bool := decodeWord s.fetchWord == some i

theorem witness_EncodeOfDecode : decodeWord 0x81F6 = some (.shr 1 15) := by decide
theorem witness_DecoderFollowsOpcodeMap :
    (0x8FFE : Word) &&& 0xF00F = 0x800E ∧ (⟨0xF00F, 0x800E⟩ : OpcodeRow) ∈ opcodeMap ∧
    decodeWord 0x8FFE = some (.shl 15 15) := by decide
theorem witness_UnknownWordsListed :
    ([0x0000, 0x00DF, 0x0FFF, 0x5001, 0x5FFF, 0x8008, 0x8FFD, 0x8FFF, 0x9001, 0x9FFF, 0xE000, 0xEFFF, 0xF000, 0xFF66]
      : List Word).all (fun op => decodeWord op == none) = true ∧
    ([0x00E0, 0x00EE, 0x1000, 0x5FF0, 0x8FFE, 0x9FF0, 0xEFA1, 0xFF65] : List Word).all
      (fun op => decodeWord op != none) = true := by decide
theorem witness_StepRunsDecodedInstruction :
    gives [(ready 0x1200).memRead 0x200, (ready 0x1200).memRead 0x201] (.jp 0x200) ∧
    (ready 0x1200).pc.toNat = 0x200 := by decide
theorem witness_UnknownWordFaults : decodeWord (ready 0x5121).fetchWord = none := by decide
theorem witness_ExactlyThreeConditions :
    faults (step (ready 0x8008)) (.unknownOpcode 0x200 0x8008) ∧
    faults (step (stacked 16 0 0 (ready 0x2300))) (.stackOverflow 0x200) ∧
    faults (step (ready 0x00EE)) (.stackUnderflow 0x200) := by decide
theorem witness_StackConditionsSurfaced_call :
    decodes (stacked 16 0 0 (ready 0x2300)) (.call 0x300) ∧ (stacked 16 0 0 (ready 0x2300)).sp.val = 16 ∧
    decodes (stacked 15 0 0 (ready 0x2300)) (.call 0x300) ∧ (stacked 15 0 0 (ready 0x2300)).sp.val ≠ 16 := by decide
theorem witness_StackConditionsSurfaced_return :
    decodes (ready 0x00EE) .ret ∧ (ready 0x00EE).sp.val = 0 ∧
    decodes (stacked 1 0 0x204 (ready 0x00EE)) .ret ∧ (stacked 1 0 0x204 (ready 0x00EE)).sp.val ≠ 0 := by decide
theorem witness_FaultLeavesStateUnchanged :
    ends (commandStep 7 (ready 0x00EE)) (fun _ r => reported r (.fault (.stackUnderflow 0x200)) false) := by decide
theorem witness_KeysAndTimersUnderStep :
    next (step (ready 0xF315)) (fun t => t.dt == 0) ∧
    next (step (regs [(3, 9)] (ready 0xF318))) (fun t => t.st == 9 && t.dt == 0) ∧
    next (step (ready 0x6000)) (fun t => t.st == 0) := by decide
theorem witness_OnlyTwoInstructionsWriteMemory :
    next (exec (.ldB 0) (ready 0)) (fun t => t.mem != (ready 0).mem) ∧
    next (exec (.ldVxMem 1) (ready 0)) (fun t => t.mem == (ready 0).mem) := by decide
theorem witness_OnlyClearAndDrawChangeDisplay :
    next (exec (.drw 0 1 2) (ready 0)) (fun t => t.fb.cell 0 0) ∧ next (exec (.ldI 5) (ready 0)) (fun _ => true) := by
  decide
theorem witness_OnlyFiveInstructionsWriteIndex :
    next (exec (.ldMemVx 15) (ready 0)) (fun t => t.i == 0x310) ∧
    next (exec (.ldB 0) (ready 0)) (fun t => t.i == 0x300) := by decide
theorem witness_OnlyCallAndReturnMoveStack :
    next (exec (.call 0x300) (stacked 15 0 7 (ready 0))) (fun t => t.sp == 16 && t.stack[0] == 7) ∧
    next (exec .ret (stacked 1 0 7 (ready 0))) (fun t => t.sp == 0 && t.stack[0] == 7) ∧
    next (exec (.jp 0) (stacked 1 0 7 (ready 0))) (fun t => t.sp == 1) := by decide
theorem witness_VfChangesOnlyAsFlagOrDestination :
    next (exec (.addReg 1 2) (regs [(1, 0xFF), (2, 1)] (ready 0))) (fun t => t.reg VF != 0) ∧
    next (exec (.ldImm VF 5) (ready 0)) (fun t => t.reg VF != 0) ∧
    next (exec (.drw 0 1 1) (lit 0 0 (ready 0))) (fun t => t.reg VF != 0) ∧
    next (exec (.addI 2) (regs [(2, 1)] ((ready 0).setI 0xFFF))) (fun t => t.reg VF != 0) := by decide
theorem witness_PcAfterEveryInstruction :
    next (exec .ret (stacked 1 0 0xFFFE (ready 0))) (fun t => t.pc == 0) ∧
    next (exec (.ldVxK 3) (ready 0)) (fun t => t.pc == 0x200) ∧
    ends (commandStep 0 (ready 0x0000)) (fun t r => t.pc == 0x200 && reported r (.fault (.unknownOpcode 0x200 0)) false) := by
  decide
theorem witness_StepKeepsMemoryCanonical :
    Memory.wf (ready 0xF055).mem = true ∧ next (step (ready 0xF055)) (fun t => t.memRead 0x300 == 0) := by decide

/-- The schedule of the witnesses: RESET, LOAD, a tick and a key. -/
def schedule : List Command := [.reset, .load [0x12, 0x00], .tick, .setKey 15 true]

theorem witness_ScheduleKeepsMemoryCanonical :
    (match runSchedule otherFont schedule none with
      | .next (some u, rs) => u.memRead 0x200 == 0x12 && rs.length == 4
      | .next (none, _) => false
      | .fault _ => false
      | .refused _ => false) = true ∧
    Memory.wf (ready 0).mem = true := by decide
theorem witness_OnlyRndSeesTheRandomInput :
    (decodes (ready 0x6A42) (.ldImm 10 0x42) ∧ next (step (ready 0x6A42)) (fun _ => true)) ∧
    (decodes (ready 0x00EE) .ret ∧ faults (step (ready 0x00EE)) (.stackUnderflow 0x200)) := by decide
theorem witness_NoInstructionReadsSoundTimer :
    next (step (ready 0xF318)) (fun _ => true) ∧ faults (step (ready 0x0000)) (.unknownOpcode 0x200 0) := by decide
theorem witness_MemoryReadAfterWrite : Memory.wf (ready 0).mem = true := by decide
theorem witness_ClearScreenClearsEveryCell : decodes (ready 0x00E0) .cls := by decide
theorem witness_DrawTogglesExactlyTheSprite :
    decodes (ready 0xD012) (.drw 0 1 2) ∧
    (ready 0xD012).memRead ((ready 0xD012).i.toNat + 1) = 0x40 ∧ (lit 1 1 (ready 0xD012)).fb.cell 1 1 = true ∧
    (ready 0xD012).fb.cell 1 1 = false := by decide
theorem witness_DrawingTwiceRestoresDisplay :
    next (exec (.drw 0 1 2) (ready 0)) (fun t => next (exec (.drw 0 1 2) t) (fun u => u.reg VF == 1)) := by decide
theorem witness_CallPushesItsOwnAddress :
    (stacked 15 0 0 (ready 0)).sp.val ≠ 16 ∧ (stacked 16 0 0 (ready 0)).sp.val = 16 := by decide
theorem witness_RetReturnsPastTheCall : (stacked 1 0 0 (ready 0)).sp.val ≠ 0 ∧ (ready 0).sp.val = 0 := by decide
theorem witness_CallThenRetReturns :
    next (exec (.call 0x300) (stacked 15 0 7 (ready 0))) (fun t => t.sp == 16 && t.stack[15] == 0x200) := by decide
theorem witness_SkipsOnImmediate :
    (regs [(1, 0xFF)] (ready 0)).reg 1 = 0xFF ∧ (regs [(1, 0xFF)] (ready 0)).reg 1 ≠ 0xFE := by decide
theorem witness_SkipsOnRegisters :
    (ready 0).reg 1 = (ready 0).reg 2 ∧ (regs [(1, 0xFF)] (ready 0)).reg 1 ≠ (ready 0).reg 2 := by decide
theorem witness_SkipsOnKey :
    (15 : Key).val = ((regs [(5, 0xFF)] (ready 0)).reg 5).toNat % 16 ∧
    ((ready 0).setKey 15 true).keyPressed 15 = true ∧ (ready 0).keyPressed 15 = false := by decide
theorem witness_AddSubtractWithFlag : (14 : Reg) ≠ VF ∧ (0 : Reg) ≠ VF := by decide
theorem witness_ShiftsByOneInPlace : (14 : Reg) ≠ VF := by decide
theorem witness_VfAsOperandOfFlagWriter : (14 : Reg) ≠ VF ∧ (0 : Reg) ≠ VF := by decide
theorem witness_RndMasksTheRandomByte :
    (State.reset.withRnd 0xA7).rndIn = [0xA7] ∧ (0x0F : Byte).getLsbD 7 = false := by decide
theorem witness_StepCommandSuppliesRandomByte :
    decodes (ready 0xC30F) (.rnd 3 0x0F) ∧
    ends (commandStep 0xA7 (ready 0xC30F)) (fun t _ => t.reg 3 == 7 && t.rndIn == [] && t.draws == 0) := by decide
theorem witness_AddToIndexRegister : (14 : Reg) ≠ VF ∧ (15 : Reg) = VF := by decide
theorem witness_DecimalDigitsStored : Memory.wf (ready 0).mem = true := by decide
theorem witness_RegistersStored :
    Memory.wf (ready 0).mem = true ∧ (15 : Reg).val ≤ (15 : Reg).val ∧
    (∀ k, k < 2 → maskAddr (0xFFF + k) ≠ maskAddr 1) := by decide
theorem witness_RegistersLoaded : (14 : Reg).val ≤ (14 : Reg).val ∧ (14 : Reg).val < (15 : Reg).val := by decide
theorem witness_StoreThenLoadRestoresRegisters :
    Memory.wf (ready 0).mem = true ∧
    next (exec (.ldMemVx 3) (ready 0)) (fun t => (t.setI 0x300).mem == t.mem && (t.setI 0x300).i == (ready 0).i) := by
  decide
theorem witness_StoreIsSeenByTheNextFetch :
    Memory.wf ((ready 0).setI 0x202).mem = true ∧
    ((ready 0).setI 0x202).i.toNat % 4096 = (((ready 0).setI 0x202).pc + 2).toNat % 4096 ∧
    next (exec (.ldMemVx 1) ((ready 0).setI 0x202)) (fun _ => true) := by decide
theorem witness_KeyWaitBlocksOrLoadsLeastKey :
    (∀ k, (ready 0xF60A).keyPressed k = false) ∧ decodes (ready 0xF60A) (.ldVxK 6) ∧
    ((ready 0xF60A).setKey 15 true).keyPressed 15 = true ∧
    (∀ j : Key, j < 15 → ((ready 0xF60A).setKey 15 true).keyPressed j = false) := by decide
theorem witness_SetKeyOverwritesOneFlag :
    ends (command defaultFont (.setKey 15 true) (ready 0)) (fun t _ => t.keyPressed 15 && !t.keyPressed 14) ∧
    refuses (command defaultFont (.setKey 16 true) (ready 0)) .keyIndexOutOfRange := by decide
theorem witness_LoadCopiesProgram :
    Memory.wf (ready 0).mem = true ∧ (List.replicate 3584 (0 : Byte)).length ≤ 3584 ∧
    3584 < (List.replicate 3585 (0 : Byte)).length := by
  exact ⟨by decide, by rw [List.length_replicate], by rw [List.length_replicate]; decide⟩
theorem witness_ResetState :
    (State.resetWith otherFont).memRead 78 = 0xA5 ∧ (State.resetWith otherFont).memRead 79 = 0 ∧
    (State.resetWith otherFont).memRead 80 = 0 ∧ State.reset.memRead 79 = 0x80 := by decide
theorem witness_ObserversChangeNothing :
    (ready 0).dump[0x300]? = some (0x300, (ready 0).mem.get 0x300) := by
  simp [State.dump, Config.memSize, State.memRead, Memory.read, maskAddr]
theorem witness_NothingBeforeReset :
    Command.step 0 ≠ .reset ∧ refuses (boundary otherFont .tick none) .beforeReset := by decide
theorem witness_RedrawCoversEveryDisplayChange :
    ends (commandStep 0 (ready 0xD012)) (fun t r => t.fb.cell 0 0 && reported r .ok true) ∧
    ends (commandStep 0 (ready 0x0000)) (fun _ r => reported r (.fault (.unknownOpcode 0x200 0)) false) := by decide
theorem witness_StepHasThreeOutcomes :
    ends (commandStep 0 (ready 0xF60A)) (fun _ r => reported r .wait false) ∧
    ends (commandStep 0 (ready 0x0000)) (fun _ r => reported r (.fault (.unknownOpcode 0x200 0)) false) ∧
    ends (commandStep 0 (ready 0x1200)) (fun _ r => reported r .ok false) := by decide
theorem witness_SelfJumpIsAFixedPoint :
    (ready 0x1200).pc.toNat = (0x200 : BitVec 12).toNat ∧ (ready 0x1200).fetchWord = encode (.jp 0x200) := by decide

end Sys2Proof.Tests
end

section
/-!
The layer the control transfer statements stand on: operands as numbers, and the frames of the instructions that move
`pc` alone or `pc` with the return stack (spec/40_control_transfer.md).
-/

namespace Sys2Proof.Machine

/-! ### Operands as numbers (30_encoding.md R63) -/

@[simp] theorem addrOperand_toNat (nnn : BitVec 12) : (addrOperand nnn).toNat = nnn.toNat :=
  BitVec.toNat_setWidth_of_le (by decide)

@[simp] theorem byteOperand_toNat (b : Byte) : (byteOperand b).toNat = b.toNat :=
  BitVec.toNat_setWidth_of_le (by decide)

/-- An address operand plus a byte is at most 0x10FE, so the 16-bit sum is the exact one (R87). -/
theorem addrOperand_add_byteOperand_toNat (nnn : BitVec 12) (b : Byte) :
    (addrOperand nnn + byteOperand b).toNat = nnn.toNat + b.toNat := by
  have hn : nnn.toNat < 4096 := nnn.isLt
  have hb : b.toNat < 256 := b.isLt
  rw [BitVec.toNat_add, addrOperand_toNat, byteOperand_toNat]
  exact Nat.mod_eq_of_lt (by omega)

/-! ### Frames -/

theorem onlyChanges_setPc (s : State) (w : Word) : OnlyChanges [.pc] s (s.setPc w) := by
  intro p hp
  cases p with
  | pc => exact absurd (List.mem_singleton_self _) hp
  | regs | keys | memory => exact fun _ => rfl
  | display => exact fun _ _ => rfl
  | stack | random => exact ⟨rfl, rfl⟩
  | index | delay | sound => rfl

theorem onlyChanges_skipIf (s : State) (c : Bool) : OnlyChanges [.pc] s (s.skipIf c) := onlyChanges_setPc s _

theorem onlyChanges_stack_pc (s : State) (entries : Vector Word 16) (sp : Fin 17) (w : Word) :
    OnlyChanges [.stack, .pc] s { s with stack := entries, sp := sp, pc := w } := by
  intro p hp
  cases p with
  | pc | stack => simp at hp
  | regs | keys | memory => exact fun _ => rfl
  | display => exact fun _ _ => rfl
  | random => exact ⟨rfl, rfl⟩
  | index | delay | sound => rfl

/-! ### Skips -/

/-- An instruction whose meaning is a skip on `c` goes past the next instruction where `c` holds, to the next one where
it does not, and writes `pc` alone (40_control_transfer.md section 3). `p` and `q` say in the statement's words when. -/
theorem exec_skip_spec {i : Instr} {s : State} {c : Bool} {p q : Prop} (hexec : exec i s = .next (s.skipIf c))
    (hp : p → c = true) (hq : q → c = false) :
    ∃ t, exec i s = .next t ∧ (p → t.pc = s.pc + 4) ∧ (q → t.pc = s.pc + 2) ∧ OnlyChanges [.pc] s t :=
  ⟨_, hexec, fun h => by simp [hp h], fun h => by simp [hq h], onlyChanges_skipIf s c⟩

end Sys2Proof.Machine
end

section
/-!
The statements of control transfer, settled (spec/40_control_transfer.md).
-/

namespace Sys2Proof.Machine

/-- Settles O28: both jumps are a `setPc`, and the sum of `BNNN` stays below 2^16. -/
theorem jumpsSetPc : Obligations.JumpsSetPc := by
  intro nnn s
  exact ⟨⟨_, rfl, addrOperand_toNat nnn, onlyChanges_setPc s _⟩,
    ⟨_, rfl, addrOperand_add_byteOperand_toNat nnn (s.reg 0), onlyChanges_setPc s _⟩⟩

/-- Settles O29, by the two cases of a call: a full stack or room. -/
theorem callPushesItsOwnAddress : Obligations.CallPushesItsOwnAddress := by
  intro nnn s
  rcases execCall_cases nnn s with ⟨hfull, hfault⟩ | ⟨hroom, hnext⟩
  · exact ⟨fun h => absurd hfull h, fun _ => hfault⟩
  · refine ⟨fun _ => ⟨_, hnext, ?own, ?others, rfl, addrOperand_toNat nnn, onlyChanges_stack_pc s _ _ _⟩,
      fun h => absurd h (Nat.ne_of_lt hroom)⟩
    case own =>
      intro k hk
      simp [hk]
    case others =>
      intro k hk
      exact Vector.getElem_set_ne hroom k.isLt (Ne.symm hk)

/-- Settles O30, by the two cases of a return: an empty stack or an entry. -/
theorem retReturnsPastTheCall : Obligations.RetReturnsPastTheCall := by
  intro s
  rcases execRet_cases s with ⟨hempty, hfault⟩ | ⟨hentry, hnext⟩
  · exact ⟨fun h => absurd hempty h, fun _ => hfault⟩
  · refine ⟨fun _ => ⟨_, hnext, Nat.sub_add_cancel (Nat.pos_of_ne_zero hentry), ?popped, rfl,
      onlyChanges_stack_pc s _ _ _⟩, fun h => absurd h hentry⟩
    case popped =>
      intro k hk
      simp [hk, BitVec.toNat_add]

/-- Settles O32: the two instructions skip on a comparison and on its negation. -/
theorem skipsOnImmediate : Obligations.SkipsOnImmediate := by
  intro x nn s
  exact ⟨exec_skip_spec rfl beq_iff_eq.mpr beq_eq_false_iff_ne.mpr,
    exec_skip_spec rfl bne_iff_ne.mpr bne_eq_false_iff_eq.mpr⟩

/-- Settles O33, as `skipsOnImmediate` with a register in the immediate's place. -/
theorem skipsOnRegisters : Obligations.SkipsOnRegisters := by
  intro x y s
  exact ⟨exec_skip_spec rfl beq_iff_eq.mpr beq_eq_false_iff_ne.mpr,
    exec_skip_spec rfl bne_iff_ne.mpr bne_eq_false_iff_eq.mpr⟩

end Sys2Proof.Machine
end

section
/-!
The frame of a flag-free register write, and what every instruction that is one does: a value into `V[x]`, `pc` past the
instruction, no other register (so no flag unless `x` is `VF` itself) and no other part of the state
(spec/41_load_alu.md).
-/

namespace Sys2Proof.Machine

theorem onlyChanges_regs_pc (s : State) (v : Vector Byte 16) (w : Word) :
    OnlyChanges [.regs, .pc] s { s with v := v, pc := w } := by
  intro p hp
  cases p with
  | regs | pc => simp at hp
  | keys | memory => exact fun _ => rfl
  | display => exact fun _ _ => rfl
  | stack | random => exact ⟨rfl, rfl⟩
  | index | delay | sound => rfl

theorem regsUnchangedBut_setReg_advance (s : State) (x : Reg) (b : Byte) :
    RegsUnchangedBut [x] s (s.setReg x b).advance := by
  intro r hr
  have hne : x ≠ r := fun e => hr (List.mem_singleton.mpr e.symm)
  rw [State.advance_reg, State.setReg_reg_of_ne s hne]

/-- An instruction whose meaning is to write `b` to `V[x]` and advance. `p` says in the statement's words what `b` is. -/
theorem exec_setReg_spec {i : Instr} {s : State} {x : Reg} {b : Byte} (p : Byte → Prop)
    (hexec : exec i s = .next (s.setReg x b).advance) (hp : p b) :
    ∃ t, exec i s = .next t ∧ p (t.reg x) ∧ t.pc = s.pc + 2 ∧
      RegsUnchangedBut [x] s t ∧ OnlyChanges [.regs, .pc] s t := by
  have hreg : (s.setReg x b).advance.reg x = b := by simp
  exact ⟨_, hexec, hreg.symm ▸ hp, rfl, regsUnchangedBut_setReg_advance s x b, onlyChanges_regs_pc s _ _⟩

end Sys2Proof.Machine
end

section
/-!
The statements of the flag-free loads, addition and logic, settled (spec/41_load_alu.md).
-/

namespace Sys2Proof.Machine

/-- Settles O35: the value written is the immediate, or the other register's. -/
theorem loadsIntoRegister : Obligations.LoadsIntoRegister := by
  intro x y nn s
  exact ⟨exec_setReg_spec (· = nn) rfl rfl, exec_setReg_spec (· = s.reg y) rfl rfl⟩

/-- Settles O36: the value written is the 8-bit sum. -/
theorem addImmediateWraps : Obligations.AddImmediateWraps := by
  intro x nn s
  exact exec_setReg_spec (·.toNat = ((s.reg x).toNat + nn.toNat) % 256) rfl (BitVec.toNat_add _ _)

/-- Settles O37: the three bitwise operations, read bit by bit. -/
theorem logicBitByBit : Obligations.LogicBitByBit := by
  intro x y s
  exact ⟨exec_setReg_spec (fun b => ∀ k, b.getLsbD k = ((s.reg x).getLsbD k || (s.reg y).getLsbD k)) rfl
      (fun _ => BitVec.getLsbD_or),
    exec_setReg_spec (fun b => ∀ k, b.getLsbD k = ((s.reg x).getLsbD k && (s.reg y).getLsbD k)) rfl
      (fun _ => BitVec.getLsbD_and),
    exec_setReg_spec (fun b => ∀ k, b.getLsbD k = ((s.reg x).getLsbD k ^^ (s.reg y).getLsbD k)) rfl
      (fun _ => BitVec.getLsbD_xor)⟩

end Sys2Proof.Machine
end

section
/-!
The layer the index and memory statements stand on: frames that compose, `I` after each of its updates, and what a run of
bytes stored from `I` leaves in memory (spec/42_index_memory.md).
-/

namespace Sys2Proof.Machine

/-! ### Frames -/

theorem Unchanged.trans {s t u : State} {p : Part} (hst : Unchanged s t p) (htu : Unchanged t u p) :
    Unchanged s u p := by
  cases p with
  | regs | keys | memory => exact fun a => (htu a).trans (hst a)
  | display => exact fun x y => (htu x y).trans (hst x y)
  | stack | random => exact ⟨htu.1.trans hst.1, htu.2.trans hst.2⟩
  | index | pc | delay | sound => exact Eq.trans htu hst

/-- The parts two updates in a row can change are those either can change. -/
theorem OnlyChanges.trans {s t u : State} {ps qs : List Part} (hst : OnlyChanges ps s t) (htu : OnlyChanges qs t u) :
    OnlyChanges (ps ++ qs) s u := by
  intro p hp
  have hps : p ∉ ps := fun h => hp (List.mem_append_left qs h)
  have hqs : p ∉ qs := fun h => hp (List.mem_append_right ps h)
  exact (hst p hps).trans (htu p hqs)

theorem onlyChanges_setI (s : State) (w : Word) : OnlyChanges [.index] s (s.setI w) := by
  intro p hp
  cases p with
  | index => exact absurd (List.mem_singleton_self _) hp
  | regs | keys | memory => exact fun _ => rfl
  | display => exact fun _ _ => rfl
  | stack | random => exact ⟨rfl, rfl⟩
  | pc | delay | sound => rfl

theorem onlyChanges_setMem (s : State) (m : Memory) : OnlyChanges [.memory] s (s.setMem m) := by
  intro p hp
  cases p with
  | memory => exact absurd (List.mem_singleton_self _) hp
  | regs | keys => exact fun _ => rfl
  | display => exact fun _ _ => rfl
  | stack | random => exact ⟨rfl, rfl⟩
  | index | pc | delay | sound => rfl

theorem onlyChanges_setRegs (s : State) (v : Vector Byte 16) : OnlyChanges [.regs] s (s.setRegs v) := by
  intro p hp
  cases p with
  | regs => exact absurd (List.mem_singleton_self _) hp
  | keys | memory => exact fun _ => rfl
  | display => exact fun _ _ => rfl
  | stack | random => exact ⟨rfl, rfl⟩
  | index | pc | delay | sound => rfl

theorem onlyChanges_advance (s : State) : OnlyChanges [.pc] s s.advance := onlyChanges_setPc s _

/-! ### `I` after an update -/

/-- Five times a byte is at most 1275, so the 16-bit product is the exact one (R122). -/
theorem byteOperand_mul_five_toNat (b : Byte) : (byteOperand b * 5).toNat = 5 * b.toNat := by
  have hb : b.toNat < 256 := b.isLt
  rw [BitVec.toNat_mul, byteOperand_toNat, show (5 : Word).toNat = 5 from rfl]
  omega

theorem State.indexPast_toNat (s : State) (x : Reg) : (s.indexPast x).toNat = (s.i.toNat + x.val + 1) % 65536 := by
  rw [State.indexPast, BitVec.toNat_add, BitVec.toNat_ofNat]
  omega

/-! ### Bytes stored from `I` (R126) -/

section Stored
variable {s t : State} {bs : List Byte} (hs : s.canonical) (ht : t.mem = s.mem.storeBytes s.indexAddr bs)
  (hlen : bs.length ≤ 4096)
include hs ht hlen

/-- Byte `k` of the run is read back at `I + k`. -/
theorem memRead_stored {k : Nat} {b : Byte} (hk : bs[k]? = some b) : t.memRead (s.i.toNat + k) = b := by
  obtain ⟨hlt, hb⟩ := List.getElem?_eq_some_iff.mp hk
  rw [State.memRead, ht, ← hb]
  exact Memory.read_storeBytes_of_lt hs _ k bs hlt hlen

/-- A number that fits a byte, stored as byte `k` of the run, is the number read back there. -/
theorem memRead_stored_toNat {k n : Nat} (hk : bs[k]? = some (BitVec.ofNat 8 n)) (hn : n < 256) :
    (t.memRead (s.i.toNat + k)).toNat = n := by
  rw [memRead_stored hs ht hlen hk, BitVec.toNat_ofNat, Nat.mod_eq_of_lt hn]

theorem memoryUnchangedOutside_stored : MemoryUnchangedOutside s.indexAddr bs.length s t := by
  intro a ha
  rw [State.memRead, ht]
  exact Memory.read_storeBytes_of_not_mem hs _ a bs ha hlen

end Stored

end Sys2Proof.Machine
end

section
/-!
The statements of the index register and memory transfer, settled (spec/42_index_memory.md).
-/

namespace Sys2Proof.Machine

/-- Settles O43: neither value wraps in the 16 bits of `I`. -/
theorem loadIndexRegister : Obligations.LoadIndexRegister := by
  intro nnn x s
  have frame (w : Word) : OnlyChanges [.index, .pc] s (s.setI w).advance :=
    (onlyChanges_setI s w).trans (onlyChanges_advance _)
  exact ⟨⟨_, rfl, addrOperand_toNat nnn, rfl, frame _⟩,
    ⟨_, rfl, byteOperand_mul_five_toNat (s.reg x), rfl, frame _⟩⟩

/-- Settles O45: the run stored is the three digits. -/
theorem decimalDigitsStored : Obligations.DecimalDigitsStored := by
  intro x s hs
  have hv : (s.reg x).toNat < 256 := (s.reg x).isLt
  have hlen : (decimalDigits (s.reg x)).length ≤ 4096 := Nat.le_add_right 3 4093
  exact ⟨_, rfl, memRead_stored_toNat (k := 0) hs rfl hlen rfl (by omega),
    memRead_stored_toNat (k := 1) hs rfl hlen rfl (by omega),
    memRead_stored_toNat (k := 2) hs rfl hlen rfl (by omega),
    memoryUnchangedOutside_stored hs rfl hlen, rfl, (onlyChanges_setMem s _).trans (onlyChanges_advance _)⟩

/-- Settles O46: the run stored is `V[0..X]`. -/
theorem registersStored : Obligations.RegistersStored := by
  intro x s hs
  have hlen : (s.regsUpTo x).length = x.val + 1 := s.regsUpTo_length x
  have hle : (s.regsUpTo x).length ≤ 4096 := by omega
  refine ⟨_, rfl, fun k hk => memRead_stored hs rfl hle (s.regsUpTo_getElem? x k hk),
    hlen ▸ memoryUnchangedOutside_stored hs rfl hle, s.indexPast_toNat x, rfl,
    ((onlyChanges_setMem s _).trans (onlyChanges_setI _ _)).trans (onlyChanges_advance _)⟩

/-- Settles O47: each register holds its byte of the run loaded, or the value it had. -/
theorem registersLoaded : Obligations.RegistersLoaded := by
  intro x s
  refine ⟨_, rfl, fun k hk => ?loaded, fun k hk => ?kept, s.indexPast_toNat x, rfl,
    ((onlyChanges_setRegs s _).trans (onlyChanges_setI _ _)).trans (onlyChanges_advance _)⟩
  case loaded => exact (s.loaded_reg x k).trans (if_pos hk)
  case kept => exact (s.loaded_reg x k).trans (if_neg (Nat.not_le_of_lt hk))

end Sys2Proof.Machine
end

section
/-!
The layer the display statements stand on: what STEP answers for a decoded instruction that completes, and the frame of a
framebuffer replaced (spec/45_host_interface.md R174; spec/43_display.md).
-/

namespace Sys2Proof.Machine

/-! ### STEP of a decoded instruction -/

/-- The random input is not part of what is fetched. -/
@[simp] theorem State.withRnd_fetchWord (s : State) (rnd : Byte) : (s.withRnd rnd).fetchWord = s.fetchWord := rfl

theorem stepReport_of_decode {s : State} {i : Instr} (hdecode : decodeWord s.fetchWord = some i)
    (hwait : waitsFor i s = false) : stepReport s = .stepped .ok (redrawsOnOk i) := by
  simp [stepReport, hdecode, hwait]

/-- STEP of an instruction that completes and does not wait answers `Ok` and that instruction's `redraw`. -/
theorem commandStep_of_exec_next {rnd : Byte} {s t : State} {i : Instr} (hdecode : decodeWord s.fetchWord = some i)
    (hwait : waitsFor i s = false) (hexec : exec i (s.withRnd rnd) = .next t) :
    commandStep rnd s = .next (s.restoreRnd t, .stepped .ok (redrawsOnOk i)) := by
  have hfetched : decodeWord (s.withRnd rnd).fetchWord = some i := by rwa [State.withRnd_fetchWord]
  have hstep : step (s.withRnd rnd) = .next t := (step_of_decode hfetched).trans hexec
  rw [commandStep, hstep, stepReport_of_decode hdecode hwait]

/-! ### Frames -/

theorem onlyChanges_setFb (s : State) (g : Grid) : OnlyChanges [.display] s (s.setFb g) := by
  intro p hp
  cases p with
  | display => exact absurd (List.mem_singleton_self _) hp
  | regs | keys | memory => exact fun _ => rfl
  | stack | random => exact ⟨rfl, rfl⟩
  | index | pc | delay | sound => rfl

end Sys2Proof.Machine
end

section
/-!
The statement of clear screen, settled (spec/43_display.md R140).
-/

namespace Sys2Proof.Machine

/-- Settles O25: the framebuffer is the clear one whatever it was, and the redraw is the instruction's, not the
display's. -/
theorem clearScreenClearsEveryCell : Obligations.ClearScreenClearsEveryCell := by
  intro s
  exact ⟨_, rfl, Grid.cell_clear, rfl, (onlyChanges_setFb s _).trans (onlyChanges_advance _),
    fun _ hdecode => ⟨_, commandStep_of_exec_next hdecode rfl rfl⟩⟩

end Sys2Proof.Machine
end

section
/-!
The frames of a timer written (spec/44_timers_keypad.md R154, R155).
-/

namespace Sys2Proof.Machine

theorem onlyChanges_setDt (s : State) (b : Byte) : OnlyChanges [.delay] s (s.setDt b) := by
  intro p hp
  cases p with
  | delay => exact absurd (List.mem_singleton_self _) hp
  | regs | keys | memory => exact fun _ => rfl
  | display => exact fun _ _ => rfl
  | stack | random => exact ⟨rfl, rfl⟩
  | index | pc | sound => rfl

theorem onlyChanges_setSt (s : State) (b : Byte) : OnlyChanges [.sound] s (s.setSt b) := by
  intro p hp
  cases p with
  | sound => exact absurd (List.mem_singleton_self _) hp
  | regs | keys | memory => exact fun _ => rfl
  | display => exact fun _ _ => rfl
  | stack | random => exact ⟨rfl, rfl⟩
  | index | pc | delay => rfl

end Sys2Proof.Machine
end

section
/-!
The statement of the timer instructions, settled (spec/44_timers_keypad.md).
-/

namespace Sys2Proof.Machine

/-- Settles O50: `FX07` is a flag-free register write of `DT`, and each of the other two writes one timer and advances. -/
theorem timerInstructions : Obligations.TimerInstructions := by
  intro x s
  exact ⟨exec_setReg_spec (· = s.dt) rfl rfl,
    ⟨_, rfl, rfl, rfl, (onlyChanges_setDt s _).trans (onlyChanges_advance _)⟩,
    ⟨_, rfl, rfl, rfl, (onlyChanges_setSt s _).trans (onlyChanges_advance _)⟩⟩

end Sys2Proof.Machine
end

section
/-!
The statement of TICK, settled (spec/45_host_interface.md R175).
-/

namespace Sys2Proof.Machine

/-- TICK's floor at 0 is that of subtraction on the naturals (10_state.md R19). -/
@[simp] theorem tickTimer_toNat (b : Byte) : (tickTimer b).toNat = b.toNat - 1 := by
  unfold tickTimer
  split
  case isTrue hpos =>
    have hle : (1 : Byte) ≤ b := BitVec.le_def.mpr hpos
    exact BitVec.toNat_sub_of_le hle
  case isFalse hzero => omega

theorem onlyChanges_tick (s : State) : OnlyChanges [.delay, .sound] s s.tick :=
  (onlyChanges_setDt s _).trans (onlyChanges_setSt _ _)

/-- Settles O52: TICK writes to each timer that timer's own count, floored at 0. -/
theorem tickCountsDownToZero : Obligations.TickCountsDownToZero := by
  intro font s
  exact ⟨s.tick, rfl, tickTimer_toNat s.dt, tickTimer_toNat s.st, onlyChanges_tick s⟩

end Sys2Proof.Machine
end

section
/-!
The decoder and the encoder: each format's words, each family's inversion, the masks of the opcode map as digits, and the
encoding statements (spec/30_encoding.md).
-/

namespace Sys2Proof

/-! ### From an instruction to its word and back -/

theorem decodeWord_encode (i : Instr) : decodeWord (encode i) = some i := by
  cases i with
  | cls | ret => rfl
  | jp | call | ldI | jpV0 => simp [encode, decodeWord]
  | seImm | sneImm | ldImm | addImm | rnd => simp [encode, decodeWord]
  | seReg | sneReg | drw => simp [encode, decodeWord]
  | ldReg | orReg | andReg | xorReg | addReg | sub | shr | subn | shl => simp [encode, decodeWord, decodeFamily8]
  | skp | sknp => simp [encode, decodeWord, decodeFamilyE]
  | ldVxDt | ldVxK | ldDtVx | ldStVx | addI | ldF | ldB | ldMemVx | ldVxMem =>
    simp [encode, decodeWord, decodeFamilyF]

/-- Two bytes decode as the word they make (R60). -/
theorem decode_pair_eq_ok {hi lo : Byte} {i : Instr} :
    decode [hi, lo] = .ok i ↔ decodeWord (wordOfBytes hi lo) = some i := by
  cases h : decodeWord (wordOfBytes hi lo) <;> simp [decode, h]

/-! ### From a word to its instruction and back, family by family (R64) -/

theorem encode_of_decodeFamily8 {n : BitVec 4} {x y : Reg} {i : Instr} (h : decodeFamily8 n x y = some i) :
    encode i = packXYN 0x8#4 x y n := by
  unfold decodeFamily8 at h
  split at h <;> cases h <;> rfl

theorem encode_of_decodeFamilyE {nn : Byte} {x : Reg} {i : Instr} (h : decodeFamilyE nn x = some i) :
    encode i = packXNN 0xE#4 x nn := by
  unfold decodeFamilyE at h
  split at h <;> cases h <;> rfl

theorem encode_of_decodeFamilyF {nn : Byte} {x : Reg} {i : Instr} (h : decodeFamilyF nn x = some i) :
    encode i = packXNN 0xF#4 x nn := by
  unfold decodeFamilyF at h
  split at h <;> cases h <;> rfl

theorem encode_of_decodeWord {op : Word} {i : Instr} (h : decodeWord op = some i) : encode i = op := by
  have hXYN := packXYN_fields op
  have hXNN := packXNN_fields op
  have hNNN := packNNN_fields op
  unfold decodeWord at h
  split at h
  case h_1 =>
    split_ifs at h with hcls hret <;> cases h
    · exact hcls.symm
    · exact hret.symm
  case h_2 hH | h_3 hH | h_11 hH | h_12 hH =>
    cases h
    rwa [hH] at hNNN
  case h_4 hH | h_5 hH | h_7 hH | h_8 hH | h_13 hH =>
    cases h
    rwa [hH] at hXNN
  case h_6 hH | h_10 hH =>
    split_ifs at h with hN
    cases h
    rwa [hH, hN] at hXYN
  case h_9 hH => rw [encode_of_decodeFamily8 h, ← hH, hXYN]
  case h_14 hH =>
    cases h
    rw [encode, nibbleBits_nibbleNum, ← hH, hXYN]
  case h_15 hH => rw [encode_of_decodeFamilyE h, ← hH, hXNN]
  case h_16 hH => rw [encode_of_decodeFamilyF h, ← hH, hXNN]
  case h_17 => cases h

/-! ### Digits of a masked word (R61, R64) -/

@[simp] theorem fieldH_and (a b : Word) : fieldH (a &&& b) = fieldH a &&& fieldH b := BitVec.extractLsb'_and
@[simp] theorem fieldN_and (a b : Word) : fieldN (a &&& b) = fieldN a &&& fieldN b := BitVec.extractLsb'_and
@[simp] theorem fieldNN_and (a b : Word) : fieldNN (a &&& b) = fieldNN a &&& fieldNN b := BitVec.extractLsb'_and

/-- A mask whose first digit is `F` keeps the first digit. -/
theorem fieldH_of_and_eq {op mask bits : Word} (hmask : fieldH mask = 0xF#4) (h : op &&& mask = bits) :
    fieldH op = bits.extractLsb' 12 4 := by
  rw [← fieldH, ← h, fieldH_and, hmask, show (0xF#4 : BitVec 4) = BitVec.allOnes 4 by decide, BitVec.and_allOnes]

/-- A mask whose last digit is `F` keeps the last digit. -/
theorem fieldN_of_and_eq {op mask bits : Word} (hmask : fieldN mask = 0xF#4) (h : op &&& mask = bits) :
    fieldN op = bits.extractLsb' 0 4 := by
  rw [← fieldN, ← h, fieldN_and, hmask, show (0xF#4 : BitVec 4) = BitVec.allOnes 4 by decide, BitVec.and_allOnes]

/-- A mask whose low byte is `FF` keeps the low byte. -/
theorem fieldNN_of_and_eq {op mask bits : Word} (hmask : fieldNN mask = 0xFF#8) (h : op &&& mask = bits) :
    fieldNN op = bits.extractLsb' 0 8 := by
  rw [← fieldNN, ← h, fieldNN_and, hmask, show (0xFF#8 : Byte) = BitVec.allOnes 8 by decide, BitVec.and_allOnes]

/-! ### The opcode map against the decoder -/

/-- The laws of the 34 instructions' own rows, over all instructions. -/
theorem encodedRow_statement (i : Instr) : Laws.EncodedRow.Statement i := by
  cases i with
  | cls => exact Laws.EncodedRow.cls
  | ret => exact Laws.EncodedRow.ret
  | jp nnn => exact Laws.EncodedRow.jp nnn
  | call nnn => exact Laws.EncodedRow.call nnn
  | seImm x nn => exact Laws.EncodedRow.seImm x nn
  | sneImm x nn => exact Laws.EncodedRow.sneImm x nn
  | seReg x y => exact Laws.EncodedRow.seReg x y
  | ldImm x nn => exact Laws.EncodedRow.ldImm x nn
  | addImm x nn => exact Laws.EncodedRow.addImm x nn
  | ldReg x y => exact Laws.EncodedRow.ldReg x y
  | orReg x y => exact Laws.EncodedRow.orReg x y
  | andReg x y => exact Laws.EncodedRow.andReg x y
  | xorReg x y => exact Laws.EncodedRow.xorReg x y
  | addReg x y => exact Laws.EncodedRow.addReg x y
  | sub x y => exact Laws.EncodedRow.sub x y
  | shr x y => exact Laws.EncodedRow.shr x y
  | subn x y => exact Laws.EncodedRow.subn x y
  | shl x y => exact Laws.EncodedRow.shl x y
  | sneReg x y => exact Laws.EncodedRow.sneReg x y
  | ldI nnn => exact Laws.EncodedRow.ldI nnn
  | jpV0 nnn => exact Laws.EncodedRow.jpV0 nnn
  | rnd x nn => exact Laws.EncodedRow.rnd x nn
  | drw x y n => exact Laws.EncodedRow.drw x y n
  | skp x => exact Laws.EncodedRow.skp x
  | sknp x => exact Laws.EncodedRow.sknp x
  | ldVxDt x => exact Laws.EncodedRow.ldVxDt x
  | ldVxK x => exact Laws.EncodedRow.ldVxK x
  | ldDtVx x => exact Laws.EncodedRow.ldDtVx x
  | ldStVx x => exact Laws.EncodedRow.ldStVx x
  | addI x => exact Laws.EncodedRow.addI x
  | ldF x => exact Laws.EncodedRow.ldF x
  | ldB x => exact Laws.EncodedRow.ldB x
  | ldMemVx x => exact Laws.EncodedRow.ldMemVx x
  | ldVxMem x => exact Laws.EncodedRow.ldVxMem x

/-- A word that decodes matches its instruction's row, one of the 34. -/
theorem opcodeRow_of_decodeWord {op : Word} {i : Instr} (h : decodeWord op = some i) :
    opcodeRow i ∈ opcodeMap ∧ op &&& (opcodeRow i).mask = (opcodeRow i).bits := by
  obtain ⟨hmatch, hmem⟩ := encodedRow_statement i
  rw [encode_of_decodeWord h] at hmatch
  exact ⟨hmem, beq_iff_eq.mp hmatch⟩

/-- A word that matches a row decodes, to an instruction of that row: the digits the row's mask keeps choose the
decoder's branch. -/
theorem decodeWord_of_row {op : Word} {row : OpcodeRow} (hrow : row ∈ opcodeMap) (h : op &&& row.mask = row.bits) :
    ∃ i, decodeWord op = some i ∧ opcodeRow i = row := by
  have hH : fieldH op = row.bits.extractLsb' 12 4 :=
    fieldH_of_and_eq ((by decide : ∀ r ∈ opcodeMap, fieldH r.mask = 0xF#4) row hrow) h
  simp only [opcodeMap, List.mem_append, List.mem_cons, List.not_mem_nil, or_false] at hrow
  rcases hrow with ((hA | hB) | hC) | hD
  · rcases hA with rfl | rfl | rfl | rfl | rfl | rfl | rfl | rfl | rfl
    · rw [show op = 0x00E0 from BitVec.and_allOnes.symm.trans h]
      exact ⟨.cls, rfl, rfl⟩
    · rw [show op = 0x00EE from BitVec.and_allOnes.symm.trans h]
      exact ⟨.ret, rfl, rfl⟩
    iterate 4 simp [decodeWord, hH, opcodeRow]
    · have hN := fieldN_of_and_eq rfl h
      simp [decodeWord, hH, hN, opcodeRow]
    all_goals simp [decodeWord, hH, opcodeRow]
  · rcases hB with rfl | rfl | rfl | rfl | rfl | rfl | rfl | rfl | rfl | rfl
    all_goals
      have hN := fieldN_of_and_eq rfl h
      simp [decodeWord, decodeFamily8, hH, hN, opcodeRow]
  · rcases hC with rfl | rfl | rfl | rfl | rfl | rfl
    iterate 4 simp [decodeWord, hH, opcodeRow]
    all_goals
      have hNN := fieldNN_of_and_eq rfl h
      simp [decodeWord, decodeFamilyE, hH, hNN, opcodeRow]
  · rcases hD with rfl | rfl | rfl | rfl | rfl | rfl | rfl | rfl | rfl
    all_goals
      have hNN := fieldNN_of_and_eq rfl h
      simp [decodeWord, decodeFamilyF, hH, hNN, opcodeRow]

/-! ### The words of no instruction (R66) -/

theorem toNat_div_eq_fieldH (op : Word) : op.toNat / 4096 = (fieldH op).toNat := by
  have hop : op.toNat < 65536 := op.isLt
  rw [fieldH, BitVec.extractLsb'_toNat, Nat.shiftRight_eq_div_pow]
  omega

theorem toNat_mod_eq_fieldN (op : Word) : op.toNat % 16 = (fieldN op).toNat := by
  rw [fieldN, BitVec.extractLsb'_toNat, Nat.shiftRight_zero]

theorem toNat_mod_eq_fieldNN (op : Word) : op.toNat % 256 = (fieldNN op).toNat := by
  rw [fieldNN, BitVec.extractLsb'_toNat, Nat.shiftRight_zero]

theorem decodeFamily8_eq_none (n : BitVec 4) (x y : Reg) :
    decodeFamily8 n x y = none ↔ n.toNat ∈ [8, 9, 10, 11, 12, 13, 15] := by
  have hn : n.toNat < 16 := n.isLt
  unfold decodeFamily8
  split
  case h_10 =>
    simp only [imp_false, ← BitVec.toNat_inj, BitVec.toNat_ofNat, List.mem_cons, List.not_mem_nil, or_false,
      true_iff] at *
    omega
  all_goals simp

theorem decodeFamilyE_eq_none (nn : Byte) (x : Reg) : decodeFamilyE nn x = none ↔ nn.toNat ∉ [0x9E, 0xA1] := by
  unfold decodeFamilyE
  split
  case h_3 => simp_all [← BitVec.toNat_inj]
  all_goals simp

theorem decodeFamilyF_eq_none (nn : Byte) (x : Reg) :
    decodeFamilyF nn x = none ↔ nn.toNat ∉ [0x07, 0x0A, 0x15, 0x18, 0x1E, 0x29, 0x33, 0x55, 0x65] := by
  unfold decodeFamilyF
  split
  case h_10 => simp_all [← BitVec.toNat_inj]
  all_goals simp

end Sys2Proof
end

section
/-!
The encoding statements, settled (spec/30_encoding.md).
-/

namespace Sys2Proof

/-- Settles O1: the word by its format's fields, and its two bytes because they make the word again. -/
theorem decodeOfEncode : Obligations.DecodeOfEncode := by
  intro i
  have hbytes : wordOfBytes ((encode i).extractLsb' 8 8) ((encode i).extractLsb' 0 8) = encode i :=
    Machine.wordOfBytes_bytesOfWord _
  exact ⟨decodeWord_encode i, decode_pair_eq_ok.mpr (hbytes.symm ▸ decodeWord_encode i)⟩

/-- Settles O2, by the inversion of the decoder. -/
theorem encodeOfDecode : Obligations.EncodeOfDecode := fun _ _ => encode_of_decodeWord

/-- Settles O3: a word that matches a row decodes to an instruction of that row, and a word decodes to one instruction
only. -/
theorem decoderFollowsOpcodeMap : Obligations.DecoderFollowsOpcodeMap := by
  intro op
  refine ⟨⟨?forward, ?backward⟩, fun i h => (opcodeRow_of_decodeWord h).2, ?unique⟩
  case forward =>
    rintro ⟨i, h⟩
    exact ⟨opcodeRow i, opcodeRow_of_decodeWord h⟩
  case backward =>
    rintro ⟨row, hrow, h⟩
    obtain ⟨i, hi, -⟩ := decodeWord_of_row hrow h
    exact ⟨i, hi⟩
  case unique =>
    intro row hrow other hother h h'
    obtain ⟨i, hi, rfl⟩ := decodeWord_of_row hrow h
    obtain ⟨j, hj, rfl⟩ := decodeWord_of_row hother h'
    rw [Option.some.inj (hi.symm.trans hj)]

/-- Settles O4, family by family: the digits the decoder looks at, as numbers. -/
theorem unknownWordsListed : Obligations.UnknownWordsListed := by
  intro op
  rw [toNat_div_eq_fieldH, toNat_mod_eq_fieldN, toNat_mod_eq_fieldNN]
  unfold decodeWord
  split
  case h_1 hH =>
    by_cases hcls : op.toNat = 0x00E0 <;> by_cases hret : op.toNat = 0x00EE <;>
      simp [hH, ← BitVec.toNat_inj, hcls, hret]
  case h_6 hH | h_10 hH => simp [hH, ← BitVec.toNat_inj]
  case h_9 hH => simp [hH, decodeFamily8_eq_none]
  case h_15 hH => simp [hH, decodeFamilyE_eq_none]
  case h_16 hH => simp [hH, decodeFamilyF_eq_none]
  case h_17 =>
    have hlt : (fieldH op).toNat < 16 := (fieldH op).isLt
    simp only [imp_false, ← BitVec.toNat_inj, BitVec.toNat_ofNat] at *
    omega
  all_goals
    rename_i hH
    simp [hH]

/-- Settles O5: each word's fields read off. -/
theorem writtenWordsDecode : Obligations.WrittenWordsDecode := by
  unfold Obligations.WrittenWordsDecode
  decide

end Sys2Proof
end

section
/-!
What a step and a STEP command can end in, said once: `exec` completes but for the two stack conditions, `step` adds the
word of no pattern, and a STEP hands the host the state before a condition or the state after the instruction
(spec/60_exceptions.md; spec/45_host_interface.md R174).
-/

namespace Sys2Proof.Machine

/-! ### `exec` -/

theorem execCall_full {nnn : BitVec 12} {s : State} (h : s.sp.val = 16) :
    execCall nnn s = .fault (.stackOverflow s.pc) := by
  rcases execCall_cases nnn s with ⟨-, hfault⟩ | ⟨hroom, -⟩
  · exact hfault
  · omega

theorem execCall_room {nnn : BitVec 12} {s : State} (h : s.sp.val < 16) : execCall nnn s = .next
    { s with stack := s.stack.set s.sp.val s.pc, sp := ⟨s.sp.val + 1, by omega⟩, pc := addrOperand nnn } := by
  rcases execCall_cases nnn s with ⟨hfull, -⟩ | ⟨_, hnext⟩
  · omega
  · exact hnext

theorem execRet_empty {s : State} (h : s.sp.val = 0) : execRet s = .fault (.stackUnderflow s.pc) := by
  rcases execRet_cases s with ⟨-, hfault⟩ | ⟨hentry, -⟩
  · exact hfault
  · exact absurd h hentry

theorem execRet_entry {s : State} (h : s.sp.val ≠ 0) : execRet s = .next
    { s with sp := ⟨s.sp.val - 1, by omega⟩, pc := s.stack[s.sp.val - 1]'(by omega) + 2 } := by
  rcases execRet_cases s with ⟨hempty, -⟩ | ⟨_, hnext⟩
  · exact absurd hempty h
  · exact hnext

theorem execLdVxK_wait {x : Reg} {s : State} (h : s.firstKey = none) : execLdVxK x s = .next s := by
  rw [execLdVxK, h]

theorem execLdVxK_key {x : Reg} {s : State} {k : Key} (h : s.firstKey = some k) :
    execLdVxK x s = .next (s.setReg x (BitVec.ofNat 8 k.val)).advance := by
  rw [execLdVxK, h]

/-- `FX0A` either waits or loads the key it finds. -/
theorem execLdVxK_cases (x : Reg) (s : State) :
    (s.firstKey = none ∧ execLdVxK x s = .next s) ∨
    (∃ k, s.firstKey = some k ∧ execLdVxK x s = .next (s.setReg x (BitVec.ofNat 8 k.val)).advance) := by
  cases h : s.firstKey with
  | none => exact .inl ⟨rfl, execLdVxK_wait h⟩
  | some k => exact .inr ⟨k, rfl, execLdVxK_key h⟩

/-- An instruction completes, or is a call on a full stack, or a return on an empty one. -/
theorem exec_cases (i : Instr) (s : State) :
    (∃ t, exec i s = .next t) ∨
    (∃ nnn, i = .call nnn ∧ s.sp.val = 16 ∧ exec i s = .fault (.stackOverflow s.pc)) ∨
    (i = .ret ∧ s.sp.val = 0 ∧ exec i s = .fault (.stackUnderflow s.pc)) := by
  cases i with
  | call nnn =>
    rcases execCall_cases nnn s with ⟨hfull, hfault⟩ | ⟨_, hnext⟩
    · exact .inr (.inl ⟨nnn, rfl, hfull, hfault⟩)
    · exact .inl ⟨_, hnext⟩
  | ret =>
    rcases execRet_cases s with ⟨hempty, hfault⟩ | ⟨_, hnext⟩
    · exact .inr (.inr ⟨rfl, hempty, hfault⟩)
    · exact .inl ⟨_, hnext⟩
  | ldVxK x =>
    rcases execLdVxK_cases x s with ⟨-, hnext⟩ | ⟨_, -, hnext⟩ <;> exact .inl ⟨_, hnext⟩
  | _ => exact .inl ⟨_, rfl⟩

theorem exec_fault_iff (i : Instr) (s : State) (f : Fault) :
    exec i s = .fault f ↔
      (∃ nnn, i = .call nnn ∧ s.sp.val = 16 ∧ f = .stackOverflow s.pc) ∨
      (i = .ret ∧ s.sp.val = 0 ∧ f = .stackUnderflow s.pc) := by
  constructor
  · intro h
    rcases exec_cases i s with ⟨t, hnext⟩ | ⟨nnn, hi, hfull, hfault⟩ | ⟨hi, hempty, hfault⟩
    · cases hnext.symm.trans h
    · cases hfault.symm.trans h
      exact .inl ⟨nnn, hi, hfull, rfl⟩
    · cases hfault.symm.trans h
      exact .inr ⟨hi, hempty, rfl⟩
  · rintro (⟨nnn, rfl, hfull, rfl⟩ | ⟨rfl, hempty, rfl⟩)
    · exact execCall_full hfull
    · exact execRet_empty hempty

/-! ### `step` -/

theorem step_fault_iff (s : State) (f : Fault) :
    step s = .fault f ↔
      (decodeWord s.fetchWord = none ∧ f = .unknownOpcode s.pc s.fetchWord) ∨
      (∃ nnn, decodeWord s.fetchWord = some (.call nnn) ∧ s.sp.val = 16 ∧ f = .stackOverflow s.pc) ∨
      (decodeWord s.fetchWord = some .ret ∧ s.sp.val = 0 ∧ f = .stackUnderflow s.pc) := by
  cases hdecode : decodeWord s.fetchWord with
  | none => simp [step_of_unknown hdecode, eq_comm]
  | some i => simp [step_of_decode hdecode, exec_fault_iff]

/-- A step completes or faults: no instruction of this model is refused. -/
theorem step_cases (s : State) :
    (∃ i t, decodeWord s.fetchWord = some i ∧ exec i s = .next t ∧ step s = .next t) ∨ ∃ f, step s = .fault f := by
  cases hdecode : decodeWord s.fetchWord with
  | none => exact .inr ⟨_, step_of_unknown hdecode⟩
  | some i =>
    rw [step_of_decode hdecode]
    rcases exec_cases i s with ⟨t, hnext⟩ | ⟨_, -, -, hfault⟩ | ⟨-, -, hfault⟩
    · exact .inl ⟨i, t, rfl, hnext, hnext⟩
    · exact .inr ⟨_, hfault⟩
    · exact .inr ⟨_, hfault⟩

/-- No condition depends on the random input: R190's three look at the fetched word, `SP` and `pc`. -/
theorem step_withRnd_fault_iff (rnd : Byte) (s : State) (f : Fault) :
    step (s.withRnd rnd) = .fault f ↔ step s = .fault f :=
  (step_fault_iff _ f).trans (step_fault_iff s f).symm

/-! ### Waiting and redrawing -/

theorem waitsFor_iff (i : Instr) (s : State) :
    waitsFor i s = true ↔ (∃ x, i = .ldVxK x) ∧ ∀ k, s.keyPressed k = false := by
  cases i with
  | ldVxK x => simp [waitsFor, State.firstKey_none]
  | _ => simp [waitsFor]

/-- An instruction that waits leaves the whole state. -/
theorem exec_of_waitsFor {i : Instr} {s : State} (h : waitsFor i s = true) : exec i s = .next s := by
  obtain ⟨⟨x, rfl⟩, hkeys⟩ := (waitsFor_iff i s).mp h
  exact execLdVxK_wait (s.firstKey_none.mpr hkeys)

@[simp] theorem waitsFor_withRnd (i : Instr) (s : State) (rnd : Byte) :
    waitsFor i (s.withRnd rnd) = waitsFor i s := by
  cases i <;> rfl

@[simp] theorem State.restoreRnd_withRnd (s : State) (rnd : Byte) : s.restoreRnd (s.withRnd rnd) = s := rfl

theorem redrawsOnOk_iff (i : Instr) : redrawsOnOk i = true ↔ i = .cls ∨ ∃ x y n, i = .drw x y n := by
  cases i <;> simp [redrawsOnOk]

/-! ### The STEP command -/

theorem commandStep_of_fault {s : State} {f : Fault} (rnd : Byte) (h : step s = .fault f) :
    commandStep rnd s = .next (s, .stepped (.fault f) false) := by
  rw [commandStep, (step_withRnd_fault_iff rnd s f).mpr h]

theorem commandStep_of_waitsFor {rnd : Byte} {s : State} {i : Instr} (hdecode : decodeWord s.fetchWord = some i)
    (hwait : waitsFor i s = true) : commandStep rnd s = .next (s, .stepped .wait false) := by
  have hstay : exec i (s.withRnd rnd) = .next (s.withRnd rnd) :=
    exec_of_waitsFor ((waitsFor_withRnd i s rnd).trans hwait)
  have hstep : step (s.withRnd rnd) = .next (s.withRnd rnd) :=
    (step_of_decode (s := s.withRnd rnd) hdecode).trans hstay
  simp [commandStep, hstep, stepReport, hdecode, hwait]

/-- The three outcomes of a STEP (R174): a condition or a wait, each with the state before it, or the instruction's own
effect, the supplied byte gone. -/
theorem commandStep_cases (rnd : Byte) (s : State) :
    (∃ f, step s = .fault f ∧ commandStep rnd s = .next (s, .stepped (.fault f) false)) ∨
    (∃ i, decodeWord s.fetchWord = some i ∧ waitsFor i s = true ∧ step s = .next s ∧
      commandStep rnd s = .next (s, .stepped .wait false)) ∨
    (∃ i t, decodeWord s.fetchWord = some i ∧ waitsFor i s = false ∧ (∀ f, step s ≠ .fault f) ∧
      exec i (s.withRnd rnd) = .next t ∧
      commandStep rnd s = .next (s.restoreRnd t, .stepped .ok (redrawsOnOk i))) := by
  rcases step_cases (s.withRnd rnd) with ⟨i, t, hdecode, hexec, hstep⟩ | ⟨f, hfault⟩
  · rw [State.withRnd_fetchWord] at hdecode
    cases hwait : waitsFor i s with
    | true =>
      exact .inr (.inl ⟨i, hdecode, hwait, (step_of_decode hdecode).trans (exec_of_waitsFor hwait),
        commandStep_of_waitsFor hdecode hwait⟩)
    | false =>
      refine .inr (.inr ⟨i, t, hdecode, hwait, fun f hf => ?_, hexec, commandStep_of_exec_next hdecode hwait hexec⟩)
      cases hstep.symm.trans ((step_withRnd_fault_iff rnd s f).mpr hf)
  · have hf := (step_withRnd_fault_iff rnd s f).mp hfault
    exact .inl ⟨f, hf, commandStep_of_fault rnd hf⟩

/-- A STEP that reports a condition met it, changed nothing and reports no redraw. -/
theorem commandStep_fault_cases {rnd : Byte} {s t : State} {f : Fault} {redraw : Bool}
    (h : commandStep rnd s = .next (t, .stepped (.fault f) redraw)) : step s = .fault f ∧ t = s ∧ redraw = false := by
  rcases commandStep_cases rnd s with
    ⟨g, hfault, hcommand⟩ | ⟨i, -, -, -, hcommand⟩ | ⟨i, u, -, -, -, -, hcommand⟩ <;>
    cases hcommand.symm.trans h
  exact ⟨hfault, rfl, rfl⟩

end Sys2Proof.Machine
end

section
/-!
The statements of the fetch, the step and its conditions, settled (spec/30_encoding.md section 1;
spec/60_exceptions.md).
-/

namespace Sys2Proof.Machine

/-- The high byte is shifted clear of the low one. -/
theorem wordOfBytes_toNat (hi lo : Byte) : (wordOfBytes hi lo).toNat = 256 * hi.toNat + lo.toNat := by
  rw [wordOfBytes, BitVec.toNat_append, ← Nat.shiftLeft_add_eq_or_of_lt (BitVec.isLt _), Nat.shiftLeft_eq]
  omega

/-- Settles O6: each byte read at its address reduced modulo 4096. -/
theorem fetchReadsTwoMaskedBytes : Obligations.FetchReadsTwoMaskedBytes := by
  intro s
  rw [State.fetchWord, wordOfBytes_toNat, State.memRead, State.memRead, Memory.read, Memory.read, maskAddr_eq_mod,
    maskAddr_eq_mod]

/-- Settles O7: the two bytes decode as the word fetched. -/
theorem stepRunsDecodedInstruction : Obligations.StepRunsDecodedInstruction :=
  fun _ _ h => step_of_decode (decode_pair_eq_ok.mp h)

/-- Settles O8. -/
theorem unknownWordFaults : Obligations.UnknownWordFaults :=
  fun _ rnd h => ⟨step_of_unknown h, commandStep_of_fault rnd (step_of_unknown h)⟩

/-- Settles O9: a step completes or faults, so it is never refused. -/
theorem exactlyThreeConditions : Obligations.ExactlyThreeConditions := by
  intro s
  refine ⟨step_fault_iff s, fun r h => ?_⟩
  rcases step_cases s with ⟨_, t, -, -, hnext⟩ | ⟨f, hfault⟩
  · cases hnext.symm.trans h
  · cases hfault.symm.trans h

/-- Settles O10, by the cases of a call and of a return. -/
theorem stackConditionsSurfaced : Obligations.StackConditionsSurfaced := by
  intro s rnd
  refine ⟨fun nnn hdecode => ⟨fun hfull => ?overflow, fun hroom => ?pushed⟩,
    fun hdecode => ⟨fun hempty => ?underflow, fun hentry => ?popped⟩⟩
  case overflow =>
    have hfault := (step_of_decode hdecode).trans (execCall_full hfull)
    exact ⟨hfault, commandStep_of_fault rnd hfault⟩
  case pushed => exact ⟨_, (step_of_decode hdecode).trans (execCall_room (by omega))⟩
  case underflow =>
    have hfault := (step_of_decode hdecode).trans (execRet_empty hempty)
    exact ⟨hfault, commandStep_of_fault rnd hfault⟩
  case popped => exact ⟨_, (step_of_decode hdecode).trans (execRet_entry hentry)⟩

/-- Settles O11: the condition is met again, the state being the same. -/
theorem faultLeavesStateUnchanged : Obligations.FaultLeavesStateUnchanged := by
  intro rnd rnd' s t f redraw h
  obtain ⟨hfault, rfl, rfl⟩ := commandStep_fault_cases h
  exact ⟨rfl, rfl, commandStep_of_fault rnd' hfault⟩

/-- Settles O59: the three outcomes exclude each other, and the first two leave the state. -/
theorem stepHasThreeOutcomes : Obligations.StepHasThreeOutcomes := by
  intro rnd s
  have hwaits (i : Instr) (hdecode : decodeWord s.fetchWord = some i) :
      waitsFor i s = true ↔ (∃ x, decodeWord s.fetchWord = some (.ldVxK x)) ∧ ∀ k, s.keyPressed k = false := by
    simp [waitsFor_iff, hdecode]
  rcases commandStep_cases rnd s with
    ⟨f, hfault, hcommand⟩ | ⟨i, hdecode, hwait, hstay, hcommand⟩ | ⟨i, t, hdecode, hwait, hcompletes, -, hcommand⟩
  · refine ⟨_, _, _, hcommand, ?_, by simp [hfault], fun _ => ⟨rfl, rfl⟩⟩
    refine iff_of_false (by simp) fun ⟨⟨x, hdecode⟩, hkeys⟩ => ?_
    have hstay := exec_of_waitsFor ((hwaits _ hdecode).mpr ⟨⟨x, hdecode⟩, hkeys⟩)
    cases hfault.symm.trans ((step_of_decode hdecode).trans hstay)
  · exact ⟨_, _, _, hcommand, iff_of_true rfl ((hwaits i hdecode).mp hwait), by simp [hstay], fun _ => ⟨rfl, rfl⟩⟩
  · refine ⟨_, _, _, hcommand, ?_, fun f => iff_of_false (by simp) (hcompletes f), fun h => absurd rfl h⟩
    exact iff_of_false (by simp) fun h => by simp [(hwaits i hdecode).mpr h] at hwait

/-- Settles O60: a jump to its own address sets `pc` to what it is. -/
theorem selfJumpIsAFixedPoint : Obligations.SelfJumpIsAFixedPoint := by
  intro nnn s hpc hfetch
  have hstep : step s = .next s := by
    rw [step_of_decode (hfetch ▸ decodeWord_encode (.jp nnn))]
    have : addrOperand nnn = s.pc := by
      rw [← BitVec.toNat_inj, addrOperand_toNat, hpc]
    rw [exec, execJp, this]; rfl
  have hrun (k : Nat) : Sys2Proof.core.run k s = .next s := by
    induction k with
    | zero => rfl
    | succ k ih => rw [core_run_succ k hstep, ih]
  exact ⟨fun k => ⟨s, hrun k⟩, hrun⟩

end Sys2Proof.Machine
end

section
/-!
The frame of every instruction, said once: the parts of the state it can change (spec/10_state.md R11 to R24, the writers
of each component), and what each rule over all instructions reads off it.
-/

namespace Sys2Proof.Machine

/-! ### Frames of single updates -/

theorem OnlyChanges.mono {s t : State} {ps qs : List Part} (h : OnlyChanges ps s t) (hsub : ps ⊆ qs) :
    OnlyChanges qs s t :=
  fun p hp => h p fun hmem => hp (hsub hmem)

theorem onlyChanges_refl (ps : List Part) (s : State) : OnlyChanges ps s s := by
  intro p _
  cases p with
  | regs | keys | memory => exact fun _ => rfl
  | display => exact fun _ _ => rfl
  | stack | random => exact ⟨rfl, rfl⟩
  | index | pc | delay | sound => rfl

theorem onlyChanges_setReg (s : State) (x : Reg) (b : Byte) : OnlyChanges [.regs] s (s.setReg x b) :=
  onlyChanges_setRegs s _

theorem onlyChanges_drawRnd (s : State) : OnlyChanges [.random] s s.drawRnd := by
  intro p hp
  cases p with
  | random => exact absurd (List.mem_singleton_self _) hp
  | regs => exact s.drawRnd_reg
  | keys => exact fun k => by simp [State.keyPressed]
  | memory => exact fun a => by simp [State.memRead]
  | display => exact fun x y => by simp
  | stack => exact ⟨s.drawRnd_sp, s.drawRnd_stack⟩
  | index => exact s.drawRnd_i
  | pc => exact s.drawRnd_pc
  | delay => exact s.drawRnd_dt
  | sound => exact s.drawRnd_st

theorem onlyChanges_setReg_advance (s : State) (x : Reg) (b : Byte) :
    OnlyChanges [.regs, .pc] s (s.setReg x b).advance := onlyChanges_regs_pc s _ _

theorem onlyChanges_flagThenReg (s : State) (flag : Byte) (x : Reg) (value : State → Byte) :
    OnlyChanges [.regs, .pc] s (s.flagThenReg flag x value) := onlyChanges_regs_pc s _ _

/-! ### The frame of an instruction -/

/-- The parts of the state an instruction can change. -/
def writtenParts : Instr → List Part
  | .cls => [.display, .pc]
  | .ret | .call _ => [.stack, .pc]
  | .jp _ | .jpV0 _ | .seImm _ _ | .sneImm _ _ | .seReg _ _ | .sneReg _ _ | .skp _ | .sknp _ => [.pc]
  | .ldImm _ _ | .addImm _ _ | .ldReg _ _ | .orReg _ _ | .andReg _ _ | .xorReg _ _ | .addReg _ _ | .sub _ _ | .shr _ _
  | .subn _ _ | .shl _ _ | .ldVxDt _ | .ldVxK _ => [.regs, .pc]
  | .rnd _ _ => [.random, .regs, .pc]
  | .drw _ _ _ => [.regs, .display, .pc]
  | .ldI _ | .ldF _ => [.index, .pc]
  | .addI _ => [.regs, .index, .pc]
  | .ldB _ => [.memory, .pc]
  | .ldMemVx _ => [.memory, .index, .pc]
  | .ldVxMem _ => [.regs, .index, .pc]
  | .ldDtVx _ => [.delay, .pc]
  | .ldStVx _ => [.sound, .pc]

/-- An instruction that completes changes no part but its own. -/
theorem exec_onlyChanges {i : Instr} {s t : State} (h : exec i s = .next t) : OnlyChanges (writtenParts i) s t := by
  cases i with
  | call nnn =>
    rcases execCall_cases nnn s with ⟨_, hc⟩ | ⟨_, hc⟩ <;> cases hc.symm.trans h
    exact onlyChanges_stack_pc s _ _ _
  | ret =>
    rcases execRet_cases s with ⟨_, hc⟩ | ⟨_, hc⟩ <;> cases hc.symm.trans h
    exact onlyChanges_stack_pc s _ _ _
  | ldVxK x =>
    rcases execLdVxK_cases x s with ⟨_, hc⟩ | ⟨_, _, hc⟩ <;> cases hc.symm.trans h
    · exact onlyChanges_refl _ s
    · exact onlyChanges_setReg_advance s _ _
  | cls => cases h; exact (onlyChanges_setFb s _).trans (onlyChanges_advance _)
  | jp | jpV0 => cases h; exact onlyChanges_setPc s _
  | seImm | sneImm | seReg | sneReg | skp | sknp => cases h; exact onlyChanges_skipIf s _
  | ldImm | addImm | ldReg | orReg | andReg | xorReg | ldVxDt => cases h; exact onlyChanges_setReg_advance s _ _
  | addReg | sub | shr | subn | shl => cases h; exact onlyChanges_flagThenReg s _ _ _
  | rnd => cases h; exact (onlyChanges_drawRnd s).trans (onlyChanges_setReg_advance _ _ _)
  | drw => cases h; exact ((onlyChanges_setReg s _ _).trans (onlyChanges_setFb _ _)).trans (onlyChanges_advance _)
  | ldI | ldF => cases h; exact (onlyChanges_setI s _).trans (onlyChanges_advance _)
  | addI => cases h; exact ((onlyChanges_setReg s _ _).trans (onlyChanges_setI _ _)).trans (onlyChanges_advance _)
  | ldB => cases h; exact (onlyChanges_setMem s _).trans (onlyChanges_advance _)
  | ldMemVx => cases h; exact ((onlyChanges_setMem s _).trans (onlyChanges_setI _ _)).trans (onlyChanges_advance _)
  | ldVxMem => cases h; exact ((onlyChanges_setRegs s _).trans (onlyChanges_setI _ _)).trans (onlyChanges_advance _)
  | ldDtVx => cases h; exact (onlyChanges_setDt s _).trans (onlyChanges_advance _)
  | ldStVx => cases h; exact (onlyChanges_setSt s _).trans (onlyChanges_advance _)

/-- A part that is not among an instruction's own reads as before. -/
theorem exec_unchanged {i : Instr} {s t : State} {p : Part} (h : exec i s = .next t) (hp : p ∉ writtenParts i) :
    Unchanged s t p := exec_onlyChanges h p hp

theorem exec_key {i : Instr} {s t : State} (h : exec i s = .next t) : t.key = s.key := by
  have hkeys : ∀ k, t.keyPressed k = s.keyPressed k := exec_unchanged (p := .keys) h (by cases i <;> simp [writtenParts])
  exact Vector.ext fun k hk => hkeys ⟨k, hk⟩

/-- No instruction but the two that store leaves another list of bytes: the frame speaks of the bytes, this of the list
itself. -/
theorem exec_mem_eq {i : Instr} {s t : State} (h : exec i s = .next t) (hB : ∀ x, i ≠ .ldB x)
    (hMem : ∀ x, i ≠ .ldMemVx x) : t.mem = s.mem := by
  cases i with
  | call nnn => rcases execCall_cases nnn s with ⟨_, hc⟩ | ⟨_, hc⟩ <;> cases hc.symm.trans h; rfl
  | ret => rcases execRet_cases s with ⟨_, hc⟩ | ⟨_, hc⟩ <;> cases hc.symm.trans h; rfl
  | ldVxK x => rcases execLdVxK_cases x s with ⟨_, hc⟩ | ⟨_, _, hc⟩ <;> cases hc.symm.trans h <;> rfl
  | rnd => cases h; exact s.drawRnd_mem
  | ldB x => exact absurd rfl (hB x)
  | ldMemVx x => exact absurd rfl (hMem x)
  | _ => cases h; rfl

/-! ### What an instruction cannot see -/

theorem State.setSt_drawRnd (s : State) (b : Byte) : (s.setSt b).drawRnd = s.drawRnd.setSt b := by
  cases h : s.rndIn <;> simp [State.drawRnd, State.setSt, h]

/-- `ST` is written by `FX18` alone and read by none (10_state.md R20). -/
theorem exec_setSt {i : Instr} {s t : State} (h : exec i s = .next t) (b : Byte) :
    ∃ c, exec i (s.setSt b) = .next (t.setSt c) := by
  cases i with
  | call nnn =>
    rcases execCall_cases nnn s with ⟨_, hc⟩ | ⟨hroom, hc⟩ <;> cases hc.symm.trans h
    exact ⟨b, execCall_room (s := s.setSt b) hroom⟩
  | ret =>
    rcases execRet_cases s with ⟨_, hc⟩ | ⟨hentry, hc⟩ <;> cases hc.symm.trans h
    exact ⟨b, execRet_entry (s := s.setSt b) hentry⟩
  | ldVxK x =>
    rcases execLdVxK_cases x s with ⟨hnone, hc⟩ | ⟨k, hkey, hc⟩ <;> cases hc.symm.trans h
    · exact ⟨b, execLdVxK_wait hnone⟩
    · exact ⟨b, execLdVxK_key hkey⟩
  | rnd x nn =>
    cases h
    exact ⟨b, by rw [exec, execRnd, State.setSt_drawRnd]; rfl⟩
  | ldStVx x => cases h; exact ⟨s.reg x, rfl⟩
  | _ => cases h; exact ⟨b, rfl⟩

/-- The state with another random input. -/
def State.setRandom (s : State) (supplied : List Byte) (drawn : Nat) : State :=
  { s with rndIn := supplied, draws := drawn }

/-- The random input is read by `CXNN` alone (10_state.md R24). -/
theorem exec_setRandom {i : Instr} {s t : State} (h : exec i s = .next t) (hrnd : ∀ x nn, i ≠ .rnd x nn)
    (supplied : List Byte) (drawn : Nat) :
    exec i (s.setRandom supplied drawn) = .next (t.setRandom supplied drawn) := by
  cases i with
  | call nnn =>
    rcases execCall_cases nnn s with ⟨_, hc⟩ | ⟨hroom, hc⟩ <;> cases hc.symm.trans h
    exact execCall_room (s := s.setRandom supplied drawn) hroom
  | ret =>
    rcases execRet_cases s with ⟨_, hc⟩ | ⟨hentry, hc⟩ <;> cases hc.symm.trans h
    exact execRet_entry (s := s.setRandom supplied drawn) hentry
  | ldVxK x =>
    rcases execLdVxK_cases x s with ⟨hnone, hc⟩ | ⟨k, hkey, hc⟩ <;> cases hc.symm.trans h
    · exact execLdVxK_wait hnone
    · exact execLdVxK_key hkey
  | rnd x nn => exact absurd rfl (hrnd x nn)
  | _ => cases h; rfl

/-- A STEP leaves the random part as it was: its own byte is used or gone, and no free one is drawn. -/
theorem exec_withRnd_draws {i : Instr} {s t : State} {rnd : Byte} (h : exec i (s.withRnd rnd) = .next t) :
    t.draws = s.draws := by
  cases i with
  | rnd x nn => cases h; rfl
  | _ => exact (exec_unchanged (p := .random) h (by simp [writtenParts])).2

/-! ### A register written, a key named -/

/-- A register that a write and the advance changed is the one written. -/
theorem eq_of_setReg_advance_reg_ne {s : State} {x r : Reg} {b : Byte} (h : (s.setReg x b).advance.reg r ≠ s.reg r) :
    x = r := by
  by_contra hne
  exact h (State.setReg_reg_of_ne s hne b)

@[simp] theorem keyOperand_val (b : Byte) : (keyOperand b).val = b.toNat % 16 := by
  simp only [keyOperand, BitVec.toNat_and]
  exact Nat.and_two_pow_sub_one_eq_mod b.toNat 4

/-! ### The canonical form of memory (20_memory.md R46) -/

theorem exec_canonical {i : Instr} {s t : State} (hs : s.canonical) (h : exec i s = .next t) : t.canonical := by
  rw [State.canonical]
  rcases exec_mem h with hmem | ⟨bs, hmem⟩
  · rwa [hmem]
  · rw [hmem]
    exact Memory.storeBytes_wf hs _ bs

theorem resetWith_canonical (font : FontData) : (State.resetWith font).canonical :=
  Memory.storeBytes_wf rfl _ _

theorem commandStep_canonical {rnd : Byte} {s t : State} {r : Response} (hs : s.canonical)
    (h : commandStep rnd s = .next (t, r)) : t.canonical := by
  rcases commandStep_cases rnd s with
    ⟨f, -, hcommand⟩ | ⟨i, -, -, -, hcommand⟩ | ⟨i, u, -, -, -, hexec, hcommand⟩ <;> cases hcommand.symm.trans h
  · exact hs
  · exact hs
  · exact exec_canonical (s := s.withRnd rnd) (t := u) hs hexec

/-- Every command that has a meaning keeps the form (20_memory.md R46). -/
theorem command_canonical {font : FontData} {c : Command} {s t : State} {r : Response} (hs : s.canonical)
    (h : command font c s = .next (t, r)) : t.canonical := by
  cases c with
  | reset => cases h; exact resetWith_canonical font
  | load bytes =>
    rw [command] at h
    split at h <;> cases h
    exact Memory.storeBytes_wf hs _ bytes
  | step rnd => exact commandStep_canonical hs h
  | tick | fbSnapshot | dumpMemory => cases h; exact hs
  | setKey index pressed =>
    rw [command] at h
    split at h <;> cases h
    exact hs

theorem boundary_canonical {font : FontData} {c : Command} {m : Option State} {t : State} {r : Response}
    (hm : ∀ s, m = some s → s.canonical) (h : boundary font c m = .next (t, r)) : t.canonical := by
  cases m with
  | some s => exact command_canonical (hm s rfl) h
  | none => cases c <;> cases h; exact resetWith_canonical font

/-- A schedule that goes through is its first command and then the rest. -/
theorem runSchedule_cons_cases {font : FontData} {c : Command} {cs : List Command} {m u : Option State}
    {rs : List Response} (h : runSchedule font (c :: cs) m = .next (u, rs)) :
    ∃ t r rs', boundary font c m = .next (t, r) ∧ runSchedule font cs (some t) = .next (u, rs') := by
  rw [runSchedule] at h
  split at h
  case h_1 t r hfirst =>
    split at h
    case h_1 u' rs' hrest => cases h; exact ⟨t, r, rs', hfirst, hrest⟩
    all_goals cases h
  all_goals cases h

end Sys2Proof.Machine
end

section
/-!
The rules over all instructions and the invariants, settled (spec/10_state.md; spec/20_memory.md;
spec/45_host_interface.md).
-/

namespace Sys2Proof.Machine

/-- Settles O12: the keys are no instruction's own part, and each timer is one instruction's. -/
theorem keysAndTimersUnderStep : Obligations.KeysAndTimersUnderStep := by
  intro s t hstep
  obtain ⟨i, hdecode, h⟩ := step_next_cases hstep
  refine ⟨exec_key h, ?delay, ?sound⟩
  case delay =>
    cases i with
    | ldDtVx x => cases h; exact .inr ⟨x, hdecode, rfl⟩
    | _ => exact .inl (exec_unchanged (p := .delay) h (by simp [writtenParts]))
  case sound =>
    cases i with
    | ldStVx x => cases h; exact .inr ⟨x, hdecode, rfl⟩
    | _ => exact .inl (exec_unchanged (p := .sound) h (by simp [writtenParts]))

/-- Settles O13. -/
theorem onlyTwoInstructionsWriteMemory : Obligations.OnlyTwoInstructionsWriteMemory := by
  intro i s t h
  by_cases hstore : ∃ x, i = .ldB x ∨ i = .ldMemVx x
  · exact .inl hstore
  · push Not at hstore
    have hmem : t.mem = s.mem := exec_mem_eq h (fun x => (hstore x).1) (fun x => (hstore x).2)
    exact .inr ⟨hmem, fun a => by rw [State.memRead, hmem, State.memRead]⟩

/-- Settles O14: the display is the own part of two instructions. -/
theorem onlyClearAndDrawChangeDisplay : Obligations.OnlyClearAndDrawChangeDisplay := by
  intro i s t h
  cases i with
  | cls => exact .inl rfl
  | drw x y n => exact .inr (.inl ⟨x, y, n, rfl⟩)
  | _ => exact .inr (.inr (exec_unchanged (p := .display) h (by simp [writtenParts])))

/-- Settles O15: `I` is the own part of five instructions. -/
theorem onlyFiveInstructionsWriteIndex : Obligations.OnlyFiveInstructionsWriteIndex := by
  intro i s t h
  cases i with
  | ldI nnn => exact .inl ⟨nnn, rfl⟩
  | addI x | ldF x | ldMemVx x | ldVxMem x => exact .inr (.inl ⟨x, by simp⟩)
  | _ => exact .inr (.inr (exec_unchanged (p := .index) h (by simp [writtenParts])))

/-- Settles O16: the stack is the own part of call and return, whose cases say the rest. -/
theorem onlyCallAndReturnMoveStack : Obligations.OnlyCallAndReturnMoveStack := by
  intro i s t h
  cases i with
  | call nnn =>
    rcases execCall_cases nnn s with ⟨_, hc⟩ | ⟨hroom, hc⟩ <;> cases hc.symm.trans h
    exact .inl ⟨⟨nnn, rfl⟩, rfl, fun k hk => Vector.getElem_set_ne hroom k.isLt (Ne.symm hk)⟩
  | ret =>
    rcases execRet_cases s with ⟨_, hc⟩ | ⟨hentry, hc⟩ <;> cases hc.symm.trans h
    exact .inr (.inl ⟨rfl, Nat.sub_add_cancel (Nat.pos_of_ne_zero hentry), rfl⟩)
  | _ => exact .inr (.inr (exec_unchanged (p := .stack) h (by simp [writtenParts])))

/-- Settles O17: the registers are no own part of the other instructions, and a write to `V[x]` changes `VF` only where
`x` is `VF`. -/
theorem vfChangesOnlyAsFlagOrDestination : Obligations.VfChangesOnlyAsFlagOrDestination := by
  intro i s t h hvf
  cases i with
  | addReg x y | sub x y | shr x y | subn x y | shl x y => exact .inl ⟨x, y, by simp⟩
  | addI x => simp
  | drw x y n => simp
  | ldImm x nn | addImm x nn | ldReg x y | orReg x y | andReg x y | xorReg x y | ldVxDt x =>
    cases h
    obtain rfl := eq_of_setReg_advance_reg_ne hvf
    simp
  | rnd x nn =>
    cases h
    rw [← s.drawRnd_reg VF] at hvf
    obtain rfl := eq_of_setReg_advance_reg_ne hvf
    simp
  | ldVxK x =>
    rcases execLdVxK_cases x s with ⟨_, hc⟩ | ⟨_, _, hc⟩ <;> cases hc.symm.trans h
    · exact absurd rfl hvf
    · obtain rfl := eq_of_setReg_advance_reg_ne hvf
      simp
  | ldVxMem x =>
    cases h
    have hx : VF.val ≤ x.val := by
      by_contra hlt
      exact hvf ((s.loaded_reg x VF).trans (if_neg hlt))
    obtain rfl : x = VF := Fin.le_antisymm (Fin.le_last x) hx
    simp
  | _ => exact absurd (exec_unchanged (p := .regs) h (by simp [writtenParts]) VF) hvf

/-- Settles O18, row by row. -/
theorem pcAfterEveryInstruction : Obligations.PcAfterEveryInstruction := by
  refine ⟨fun i s t h => ?table, fun rnd s t f redraw h => ?fault⟩
  case fault =>
    obtain ⟨-, rfl, -⟩ := commandStep_fault_cases h
    rfl
  cases i with
  | call nnn =>
    rcases execCall_cases nnn s with ⟨_, hc⟩ | ⟨_, hc⟩ <;> cases hc.symm.trans h
    rfl
  | ret =>
    rcases execRet_cases s with ⟨_, hc⟩ | ⟨hentry, hc⟩ <;> cases hc.symm.trans h
    exact ⟨⟨s.sp.val - 1, by omega⟩, Nat.sub_add_cancel (Nat.pos_of_ne_zero hentry), rfl⟩
  | ldVxK x =>
    rcases execLdVxK_cases x s with ⟨hnone, hc⟩ | ⟨k, hkey, hc⟩ <;> cases hc.symm.trans h
    · simp [s.firstKey_none.mp hnone]
    · exact (if_pos ⟨k, (State.firstKey_some hkey).1⟩).symm
  | seImm | sneImm | seReg | sneReg => cases h; simp
  | skp x | sknp x => cases h; exact ⟨keyOperand (s.reg x), keyOperand_val _, by simp⟩
  | rnd => cases h; simp
  | _ => cases h; rfl

/-- Settles O19: an instruction leaves memory or stores a run of bytes, and both keep the form. -/
theorem stepKeepsMemoryCanonical : Obligations.StepKeepsMemoryCanonical := by
  intro s t hs hstep
  obtain ⟨i, -, h⟩ := step_next_cases hstep
  exact exec_canonical hs h

/-- Settles O20: RESET stores its font in an empty list. -/
theorem resetMemoryCanonical : Obligations.ResetMemoryCanonical := ⟨rfl, resetWith_canonical⟩

/-- Settles O21, by induction on the schedule. -/
theorem scheduleKeepsMemoryCanonical : Obligations.ScheduleKeepsMemoryCanonical := by
  intro font cs
  induction cs with
  | nil =>
    intro m u rs hm h
    cases h
    exact hm u rfl
  | cons c cs ih =>
    intro m u rs hm h
    obtain ⟨t, r, rs', hfirst, hrest⟩ := runSchedule_cons_cases h
    refine ih (some t) u rs' (fun s hs => ?_) hrest
    cases hs
    exact boundary_canonical hm hfirst

/-- Settles O22: the conditions do not look at the random input, and `CXNN` alone reads it. -/
theorem onlyRndSeesTheRandomInput : Obligations.OnlyRndSeesTheRandomInput := by
  intro s supplied drawn hrnd
  refine ⟨fun t hstep => ?_, fun f hfault => (step_fault_iff (s.setRandom supplied drawn) f).mpr
    ((step_fault_iff s f).mp hfault)⟩
  obtain ⟨i, hdecode, h⟩ := step_next_cases hstep
  have hi : ∀ x nn, i ≠ .rnd x nn := fun x nn hi => hrnd x nn (hi ▸ hdecode)
  exact (step_of_decode (s := s.setRandom supplied drawn) hdecode).trans (exec_setRandom h hi supplied drawn)

/-- Settles O23: neither the conditions nor any instruction look at `ST`. -/
theorem noInstructionReadsSoundTimer : Obligations.NoInstructionReadsSoundTimer := by
  intro s b
  refine ⟨fun t hstep => ?_, fun f hfault => (step_fault_iff (s.setSt b) f).mpr ((step_fault_iff s f).mp hfault)⟩
  obtain ⟨i, hdecode, h⟩ := step_next_cases hstep
  obtain ⟨c, hc⟩ := exec_setSt h b
  exact ⟨c, (step_of_decode (s := s.setSt b) hdecode).trans hc⟩

/-- Settles O24: the law of memory, the mask written as a remainder. -/
theorem memoryReadAfterWrite : Obligations.MemoryReadAfterWrite := by
  intro s a c b hs
  rw [← maskAddr_eq_mod, ← maskAddr_eq_mod]
  exact Memory.read_write hs a c b

/-- Settles O58: the redraw is that of the instruction completed, and an instruction that changes a cell is one of the
two that ask for it. -/
theorem redrawCoversEveryDisplayChange : Obligations.RedrawCoversEveryDisplayChange := by
  intro rnd s t result redraw h
  rcases commandStep_cases rnd s with
    ⟨f, -, hcommand⟩ | ⟨i, -, -, -, hcommand⟩ | ⟨i, u, hdecode, -, -, hexec, hcommand⟩ <;>
    cases hcommand.symm.trans h
  · simp
  · simp
  · refine ⟨by simp [redrawsOnOk_iff, hdecode], fun ⟨x, y, hcell⟩ => (redrawsOnOk_iff i).mpr ?_⟩
    rcases onlyClearAndDrawChangeDisplay i _ u hexec with hcls | hdrw | hsame
    · exact .inl hcls
    · exact .inr hdrw
    · exact absurd (hsame x y) hcell

end Sys2Proof.Machine
end

section
/-!
The layer the flag writers stand on: the flags and the 8-bit differences as numbers, and what the flag-then-result order
leaves in `VF` and in the destination (spec/41_load_alu.md sections 2, 4 and 5; spec/00_scope.md R7).
-/

namespace Sys2Proof.Machine

/-! ### Flags and bytes as numbers -/

@[simp] theorem flagByte_toNat (c : Bool) : (flagByte c).toNat = if c then 1 else 0 := by
  cases c <;> rfl

@[simp] theorem carryFlag_toNat (a b : Byte) : (carryFlag a b).toNat = if a.toNat + b.toNat > 255 then 1 else 0 := by
  simp [carryFlag]

@[simp] theorem notBorrowFlag_toNat (a b : Byte) : (notBorrowFlag a b).toNat = if b.toNat > a.toNat then 0 else 1 := by
  simp only [notBorrowFlag, flagByte_toNat, Bool.not_eq_true', decide_eq_false_iff_not, ite_not]

@[simp] theorem shiftRightFlag_toNat (a : Byte) : (shiftRightFlag a).toNat = a.toNat % 2 := by
  rw [shiftRightFlag, BitVec.toNat_and]
  exact Nat.and_one_is_mod a.toNat

@[simp] theorem shiftLeftFlag_toNat (a : Byte) : (shiftLeftFlag a).toNat = a.toNat / 128 := by
  have ha : a.toNat < 256 := a.isLt
  have hmod : (shiftLeftFlag a).toNat = a.toNat >>> 7 % 2 := by
    rw [shiftLeftFlag, BitVec.toNat_and, BitVec.toNat_ushiftRight]
    exact Nat.and_one_is_mod _
  rw [hmod, Nat.shiftRight_eq_div_pow]
  omega

@[simp] theorem indexRangeFlag_toNat (i : Word) (b : Byte) :
    (indexRangeFlag i b).toNat = if i.toNat + b.toNat > 0xFFF then 1 else 0 := by
  simp [indexRangeFlag]

/-- An 8-bit difference, the subtraction brought above 0. -/
theorem byte_sub_toNat (a b : Byte) : (a - b).toNat = (a.toNat + 256 - b.toNat) % 256 := by
  have hb : b.toNat < 256 := b.isLt
  rw [BitVec.toNat_sub]
  omega

theorem byte_shiftRight_toNat (a : Byte) : (a >>> 1).toNat = a.toNat / 2 := by
  rw [BitVec.toNat_ushiftRight, Nat.shiftRight_eq_div_pow, pow_one]

theorem byte_shiftLeft_toNat (a : Byte) : (a <<< 1).toNat = 2 * a.toNat % 256 := by
  rw [BitVec.toNat_shiftLeft, Nat.shiftLeft_eq, pow_one, Nat.mul_comm]

/-! ### The flag, then the result -/

section FlagThenReg
variable {i : Instr} {s : State} {flag : Byte} {x : Reg} {value : State → Byte} {result f : Nat}

/-- A flag writer whose destination is not `VF`: both the result and the flag stand. -/
theorem exec_flagThenReg_spec (hexec : exec i s = .next (s.flagThenReg flag x value)) (hx : x ≠ VF)
    (hresult : (value (s.setReg VF flag)).toNat = result) (hflag : flag.toNat = f) :
    ∃ t, exec i s = .next t ∧ (t.reg x).toNat = result ∧ (t.reg VF).toNat = f ∧ t.pc = s.pc + 2 ∧
      RegsUnchangedBut [x, VF] s t ∧ OnlyChanges [.regs, .pc] s t := by
  refine ⟨_, hexec, ?_, ?_, rfl, fun r hr => ?_, onlyChanges_flagThenReg s _ _ _⟩
  · rw [State.flagThenReg, State.advance_reg, State.setReg_reg_self, hresult]
  · rw [State.flagThenReg, State.advance_reg, State.setReg_reg_of_ne _ hx, State.setReg_reg_self, hflag]
  · simp only [List.mem_cons, List.not_mem_nil, or_false, not_or] at hr
    rw [State.flagThenReg, State.advance_reg, State.setReg_reg_of_ne _ (Ne.symm hr.1),
      State.setReg_reg_of_ne _ (Ne.symm hr.2)]

/-- A flag writer whose destination is `VF`: the result overwrites the flag (R113). -/
theorem exec_flagThenVf_spec (hexec : exec i s = .next (s.flagThenReg flag VF value))
    (hresult : (value (s.setReg VF flag)).toNat = result) :
    ∃ t, exec i s = .next t ∧ (t.reg VF).toNat = result ∧ t.pc = s.pc + 2 ∧
      RegsUnchangedBut [VF] s t ∧ OnlyChanges [.regs, .pc] s t := by
  refine ⟨_, hexec, ?_, rfl, fun r hr => ?_, onlyChanges_flagThenReg s _ _ _⟩
  · rw [State.flagThenReg, State.advance_reg, State.setReg_reg_self, hresult]
  · have hne : VF ≠ r := fun e => hr (List.mem_singleton.mpr e.symm)
    rw [State.flagThenReg, State.advance_reg, State.setReg_reg_of_ne _ hne, State.setReg_reg_of_ne _ hne]

end FlagThenReg

/-- A register other than `VF`, read after the flag is written. -/
theorem State.setVf_reg {x : Reg} (hx : x ≠ VF) (s : State) (flag : Byte) : (s.setReg VF flag).reg x = s.reg x :=
  State.setReg_reg_of_ne s (Ne.symm hx) flag

/-! ### The random byte (10_state.md R24) -/

theorem State.drawRnd_supplied {s : State} {b : Byte} {rest : List Byte} (h : s.rndIn = b :: rest) :
    s.drawRnd = { s with rndIn := rest } := by
  rw [State.drawRnd, h]

/-- STEP of a `CXNN` is the write of the supplied byte, and-ed. -/
theorem commandStep_rnd {rnd : Byte} {s : State} {x : Reg} {nn : Byte}
    (hdecode : decodeWord s.fetchWord = some (.rnd x nn)) :
    commandStep rnd s = .next ((s.setReg x (rnd &&& nn)).advance, .stepped .ok false) :=
  commandStep_of_exec_next hdecode rfl rfl

end Sys2Proof.Machine
end

section
/-!
The statements of the flag writers and of the random byte, settled (spec/41_load_alu.md; spec/42_index_memory.md R121).
-/

namespace Sys2Proof.Machine

/-- Settles O38: neither operand is `VF`, so the result reads what the flag was computed from. -/
theorem addSubtractWithFlag : Obligations.AddSubtractWithFlag := by
  intro x y s hx hy
  have hvx (flag : Byte) := State.setVf_reg hx s flag
  have hvy (flag : Byte) := State.setVf_reg hy s flag
  refine ⟨exec_flagThenReg_spec rfl hx ?_ (carryFlag_toNat _ _),
    exec_flagThenReg_spec rfl hx ?_ (notBorrowFlag_toNat _ _),
    exec_flagThenReg_spec rfl hx ?_ (notBorrowFlag_toNat _ _)⟩
  · simp only [hvx, hvy, BitVec.toNat_add]
  · simp only [hvx, hvy, byte_sub_toNat]
  · simp only [hvx, hvy, byte_sub_toNat]

/-- Settles O39. -/
theorem shiftsByOneInPlace : Obligations.ShiftsByOneInPlace := by
  intro x y s hx
  have hvx (flag : Byte) := State.setVf_reg hx s flag
  refine ⟨exec_flagThenReg_spec rfl hx ?_ (shiftRightFlag_toNat _),
    exec_flagThenReg_spec rfl hx ?_ (shiftLeftFlag_toNat _)⟩
  · simp only [hvx, byte_shiftRight_toNat]
  · simp only [hvx, byte_shiftLeft_toNat]

/-- Settles O40, row by row: where an operand is `VF` the result reads the flag just written. -/
theorem vfAsOperandOfFlagWriter : Obligations.VfAsOperandOfFlagWriter := by
  intro x y s hx hy vf vx vy ends endsF carry noBorrow
  have hvx (flag : Byte) := State.setVf_reg hx s flag
  have hvy (flag : Byte) := State.setVf_reg hy s flag
  refine ⟨exec_flagThenReg_spec rfl hx ?_ (carryFlag_toNat _ _), exec_flagThenVf_spec rfl ?_,
    exec_flagThenVf_spec rfl ?addBoth, exec_flagThenReg_spec rfl hx ?_ (notBorrowFlag_toNat _ _),
    exec_flagThenVf_spec rfl ?_, exec_flagThenVf_spec rfl ?subBoth, fun z => exec_flagThenVf_spec rfl ?shiftRight,
    exec_flagThenReg_spec rfl hx ?_ (notBorrowFlag_toNat _ _), exec_flagThenVf_spec rfl ?_,
    exec_flagThenVf_spec rfl ?subnBoth, fun z => exec_flagThenVf_spec rfl ?shiftLeft⟩
  all_goals simp only [hvx, hvy, State.setReg_reg_self, BitVec.toNat_add, byte_sub_toNat, byte_shiftRight_toNat,
    byte_shiftLeft_toNat, carryFlag_toNat, notBorrowFlag_toNat, shiftRightFlag_toNat, shiftLeftFlag_toNat, vf, vx, vy,
    carry, noBorrow]
  case addBoth => split <;> rfl
  case subBoth | subnBoth | shiftRight => omega
  case shiftLeft =>
    have hvf : (s.reg VF).toNat < 256 := (s.reg VF).isLt
    omega

/-- Settles O44: the flag is computed from the old `V[X]`, the sum from the `V[X]` that then stands. -/
theorem addToIndexRegister : Obligations.AddToIndexRegister := by
  intro x s f
  have hflag : (indexRangeFlag s.i (s.reg x)).toNat = f := indexRangeFlag_toNat _ _
  refine ⟨_, rfl, ?flag, fun hx => ?other, fun hx => ?vf, rfl, regsUnchangedBut_setReg_advance s VF _,
    (exec_onlyChanges (i := .addI x) rfl).mono (by simp [writtenParts])⟩
  case flag => simp [hflag]
  case other => simp [State.setVf_reg hx, BitVec.toNat_add]
  case vf =>
    subst hx
    simp [hflag, BitVec.toNat_add]

/-- Settles O41: whatever the byte is, it is and-ed with `NN`. -/
theorem rndMasksTheRandomByte : Obligations.RndMasksTheRandomByte := by
  intro x nn s
  have hreg : (s.drawRnd.setReg x (s.nextRnd &&& nn)).advance.reg x = s.nextRnd &&& nn := by simp
  refine ⟨_, rfl, ⟨s.nextRnd, hreg⟩, fun rnd rest h => ?supplied, fun k hk => ?masked, by simp, fun r hr => ?others,
    (exec_onlyChanges (i := .rnd x nn) rfl).mono (by simp [writtenParts])⟩
  case supplied =>
    refine ⟨hreg.trans (by rw [s.nextRnd_supplied h]), ?_, ?_⟩ <;> simp [State.drawRnd_supplied h]
  case masked => rw [hreg, BitVec.getLsbD_and, hk, Bool.and_false]
  case others => rw [regsUnchangedBut_setReg_advance s.drawRnd x _ r hr, State.drawRnd_reg]

/-- Settles O42: the supplied byte is the one the instruction uses, and the STEP takes it away again. -/
theorem stepCommandSuppliesRandomByte : Obligations.StepCommandSuppliesRandomByte := by
  intro rnd s
  refine ⟨fun x nn hdecode => ⟨_, commandStep_rnd hdecode, by simp, rfl, regsUnchangedBut_setReg_advance s x _,
    onlyChanges_setReg_advance s x _⟩, fun t r h => ?_⟩
  rcases commandStep_cases rnd s with
    ⟨f, -, hcommand⟩ | ⟨i, -, -, -, hcommand⟩ | ⟨i, u, -, -, -, hexec, hcommand⟩ <;> cases hcommand.symm.trans h
  · exact ⟨rfl, rfl⟩
  · exact ⟨rfl, rfl⟩
  · exact ⟨rfl, exec_withRnd_draws (t := u) hexec⟩

end Sys2Proof.Machine
end

section
/-!
The layer the memory transfer, keypad and host command statements stand on: one address for all that mask alike, the
least key, and what LOAD and SETKEY accept and change (20_memory.md R41; 44_timers_keypad.md R153;
45_host_interface.md R173, R176).
-/

namespace Sys2Proof.Machine

/-- Addresses with the same low 12 bits are one address (R41). -/
theorem State.memRead_congr {s : State} {a c : Nat} (h : a % 4096 = c % 4096) : s.memRead a = s.memRead c := by
  simp only [State.memRead, Memory.read, maskAddr_eq_mod, h]

/-- The key found is the least one pressed. -/
theorem State.firstKey_of_least {s : State} {k : Key} (hk : s.keyPressed k = true)
    (hleast : ∀ j, j < k → s.keyPressed j = false) : s.firstKey = some k := by
  cases h : s.firstKey with
  | none => exact absurd (s.firstKey_none.mp h k) (by simp [hk])
  | some j =>
    obtain ⟨hj, hleast'⟩ := State.firstKey_some h
    rcases lt_trichotomy j k with hlt | rfl | hlt
    · exact absurd (hleast j hlt) (by simp [hj])
    · rfl
    · exact absurd (hleast' k hlt) (by simp [hk])

theorem onlyChanges_setKey (s : State) (k : Key) (pressed : Bool) : OnlyChanges [.keys] s (s.setKey k pressed) := by
  intro p hp
  cases p with
  | keys => exact absurd (List.mem_singleton_self _) hp
  | regs | memory => exact fun _ => rfl
  | display => exact fun _ _ => rfl
  | stack | random => exact ⟨rfl, rfl⟩
  | index | pc | delay | sound => rfl

theorem State.setKey_keyPressed (s : State) (k j : Key) (pressed : Bool) :
    (s.setKey k pressed).keyPressed j = if k = j then pressed else s.keyPressed j := by
  simp only [State.keyPressed, State.setKey_key, Vector.getElem_set, Fin.ext_iff]

theorem keyIndexInRange_iff (index : Nat) : keyIndexInRange index = true ↔ index < 16 := decide_eq_true_iff

theorem loadFits_iff (bytes : List Byte) : loadFits bytes = true ↔ bytes.length ≤ 3584 := decide_eq_true_iff

end Sys2Proof.Machine
end

section
/-!
The statements of control transfer, memory transfer and the keypad that join two instructions or two rules, settled
(spec/40_control_transfer.md; spec/42_index_memory.md; spec/44_timers_keypad.md).
-/

namespace Sys2Proof.Machine

/-- Settles O31: the return reads the entry the call pushed. -/
theorem callThenRetReturns : Obligations.CallThenRetReturns := by
  intro nnn s t u h hstack hsp
  rcases execCall_cases nnn s with ⟨_, hc⟩ | ⟨hroom, hc⟩ <;> cases hc.symm.trans h
  refine ⟨_, execRet_entry (by simp [hsp]), ?_, ?_⟩
  · simp [hstack, hsp]
  · simp [hsp]

/-- Settles O34: the key named is the one of the low four bits. -/
theorem skipsOnKey : Obligations.SkipsOnKey := by
  intro x k s hk
  obtain rfl : keyOperand (s.reg x) = k := Fin.ext (by rw [keyOperand_val, hk])
  exact ⟨exec_skip_spec rfl id id, exec_skip_spec rfl (by simp) (by simp)⟩

/-- Settles O48: `FX65` reads the run `FX55` stored. -/
theorem storeThenLoadRestoresRegisters : Obligations.StoreThenLoadRestoresRegisters := by
  intro x s t u hs h hmem hi
  cases h
  refine ⟨_, rfl, fun k hk => ?_, ?_⟩
  · have hlen : (s.regsUpTo x).length ≤ 4096 := by rw [s.regsUpTo_length]; omega
    calc (writeRegsFrom u.v 0 (u.bytesAtIndex (x.val + 1)))[k.val]
        = u.memRead (u.i.toNat + k.val) := (u.loaded_reg x k).trans (if_pos hk)
      _ = s.reg k := hi ▸ memRead_stored hs hmem hlen (s.regsUpTo_getElem? x k hk)
  · simp [State.indexPast, hi]

/-- Settles O49: the fetch reads the first two bytes of the run stored. -/
theorem storeIsSeenByTheNextFetch : Obligations.StoreIsSeenByTheNextFetch := by
  intro x s t hs hx hpc h
  obtain ⟨hmem, hnext⟩ : t.mem = s.mem.storeBytes s.indexAddr (s.regsUpTo x) ∧ t.pc = s.pc + 2 := by
    cases h; exact ⟨rfl, rfl⟩
  have hlen : (s.regsUpTo x).length ≤ 4096 := by rw [s.regsUpTo_length]; omega
  have hstored (k : Reg) (hk : k.val ≤ x.val) : t.memRead (t.pc.toNat + k.val) = s.reg k := by
    have haddr : (t.pc.toNat + k.val) % 4096 = (s.i.toNat + k.val) % 4096 := by
      rw [hnext, Nat.add_mod, ← hpc, ← Nat.add_mod]
    rw [State.memRead_congr haddr]
    exact memRead_stored hs hmem hlen (s.regsUpTo_getElem? x k hk)
  rw [State.fetchWord, wordOfBytes_toNat]
  exact congrArg₂ (fun hi lo : Byte => 256 * hi.toNat + lo.toNat) (hstored 0 (Nat.zero_le _)) (hstored 1 hx)

/-- Settles O51. -/
theorem keyWaitBlocksOrLoadsLeastKey : Obligations.KeyWaitBlocksOrLoadsLeastKey := by
  intro x s
  refine ⟨fun hnone => ?wait, fun k hk hleast => ?least⟩
  case wait =>
    have hwait : waitsFor (.ldVxK x) s = true := (waitsFor_iff _ s).mpr ⟨⟨x, rfl⟩, hnone⟩
    exact ⟨exec_of_waitsFor hwait, fun rnd hdecode => commandStep_of_waitsFor hdecode hwait⟩
  case least =>
    have hkey : s.firstKey = some k := State.firstKey_of_least hk hleast
    have hwait : waitsFor (.ldVxK x) s = false := by simp [waitsFor, hkey]
    obtain ⟨t, hexec, hreg, hpc, hregs, hframe⟩ := exec_setReg_spec (i := .ldVxK x) (·.toNat = k.val) (execLdVxK_key hkey)
      (by rw [BitVec.toNat_ofNat]; omega)
    exact ⟨t, hexec, hreg, hpc, hregs, hframe, fun rnd hdecode =>
      ⟨_, commandStep_of_exec_next hdecode hwait (execLdVxK_key hkey)⟩⟩

end Sys2Proof.Machine
end

section
/-!
The statements of the host's commands, settled (spec/45_host_interface.md; spec/70_reset_and_hazards.md).
-/

namespace Sys2Proof.Machine

/-- Settles O53. -/
theorem setKeyOverwritesOneFlag : Obligations.SetKeyOverwritesOneFlag := by
  intro font index pressed s
  refine ⟨fun hlt => ⟨s.setKey ⟨index, hlt⟩ pressed, ?_, fun k hk => ?_, fun k hk => ?_, onlyChanges_setKey s _ _⟩,
    fun hge => ?_⟩
  · rw [command, dif_pos ((keyIndexInRange_iff index).mpr hlt)]
  · rw [State.setKey_keyPressed, if_pos (Fin.ext hk.symm)]
  · rw [State.setKey_keyPressed, if_neg fun e => hk (congrArg Fin.val e.symm)]
  · rw [command, dif_neg (mt (keyIndexInRange_iff index).mp (Nat.not_lt.mpr hge))]

/-- Settles O54: the run stored from 0x200 ends below 4096, so no address of it wraps. -/
theorem loadCopiesProgram : Obligations.LoadCopiesProgram := by
  intro font bytes s hs
  refine ⟨fun hfits => ⟨s.load bytes, ?_, fun k b hk => ?_, fun a ha hout => ?_, onlyChanges_setMem s _⟩, fun hlong => ?_⟩
  · rw [command, if_pos ((loadFits_iff bytes).mpr hfits)]
  · obtain ⟨hlt, rfl⟩ := List.getElem?_eq_some_iff.mp hk
    exact Memory.read_storeBytes_of_lt hs _ k bytes hlt (by omega)
  · refine Memory.read_storeBytes_of_not_mem hs _ a bytes (fun k hk => ?_) (by omega)
    simp only [maskAddr_eq_mod, Config.progBase]
    omega
  · rw [command, if_neg (mt (loadFits_iff bytes).mp (Nat.not_le.mpr hlong))]

/-- Settles O55: RESET reads no state; each part is a constant, and memory holds the font it is given. -/
theorem resetState : Obligations.ResetState := by
  refine ⟨fun font => ⟨fun m => ?boundary, State.resetWith_reg font, rfl, rfl, rfl, fun k => ?stack, rfl, rfl,
    fun k => ?keys, fun x y => ?display, fun k => ?font, fun a hlo hhi => ?zero⟩, State.resetWith_defaultFont.symm⟩
  case boundary => cases m <;> rfl
  case stack => simp [State.reset]
  case keys => simp [State.keyPressed, State.reset]
  case display => exact Grid.cell_clear x y
  case font =>
    have hk : k.val % 4096 = k.val := Nat.mod_eq_of_lt (by omega)
    simp [State.resetWith_memRead, hk]
  case zero => rw [State.resetWith_memRead, dif_neg (by omega)]

/-- Settles O56. -/
theorem observersChangeNothing : Obligations.ObserversChangeNothing := by
  intro font s
  refine ⟨⟨_, rfl, fun _ _ => rfl⟩, ⟨_, rfl, ?_, fun a ha => ?_⟩⟩
  · simp [State.dump, Config.memSize]
  · simp [State.dump, Config.memSize, ha, State.memRead, Memory.read, maskAddr_eq_mod, Nat.mod_eq_of_lt ha]

/-- Settles O57, command by command. -/
theorem nothingBeforeReset : Obligations.NothingBeforeReset := by
  intro font c hc
  cases c with
  | reset => exact absurd rfl hc
  | _ => rfl

end Sys2Proof.Machine
end

section
/-!
The sprite draw: which cells `DXYN` covers, in the numbers of the rule, and what it leaves in the display and in `VF`
(spec/43_display.md R141).
-/

namespace Sys2Proof.Machine

/-! ### The cells a sprite covers -/

theorem rowCovers_iff (b : Byte) (x0 : Nat) (x : Column) :
    rowCovers b x0 x = true ↔ ∃ c, c < 8 ∧ b.getLsbD (7 - c) = true ∧ x.val = (x0 + c) % 64 := by
  have hcols (c : Nat) : c ∈ [0, 1, 2, 3, 4, 5, 6, 7] ↔ c < 8 := List.mem_range (n := 8)
  simp only [rowCovers, List.any_eq_true, hcols, Bool.and_eq_true, decide_eq_true_eq, columnOf, Fin.ext_iff,
    eq_comm (a := x.val)]

theorem spriteCovers_iff (bs : List Byte) (x0 y0 : Nat) (x : Column) (y : Row) :
    spriteCovers bs x0 y0 x y = true ↔
      ∃ r b, bs[r]? = some b ∧ y.val = (y0 + r) % 32 ∧ rowCovers b x0 x = true := by
  induction bs generalizing y0 with
  | nil => simp [spriteCovers]
  | cons b bs ih =>
    simp only [spriteCovers, Bool.or_eq_true, Bool.and_eq_true, decide_eq_true_eq, ih]
    constructor
    · rintro (⟨rfl, hcov⟩ | ⟨r, b', hr, hy, hcov⟩)
      · exact ⟨0, b, rfl, rfl, hcov⟩
      · exact ⟨r + 1, b', hr, by rw [hy, Nat.add_right_comm, Nat.add_assoc], hcov⟩
    · rintro ⟨_ | r, b', hr, hy, hcov⟩
      · cases hr
        exact .inl ⟨Fin.ext hy.symm, hcov⟩
      · exact .inr ⟨r, b', hr, by rw [hy, Nat.add_right_comm, Nat.add_assoc], hcov⟩

/-- Whether a `DXYN` run in `s` has a set bit on the cell. -/
def State.drawCovers (s : State) (x y : Reg) (n : Fin 16) (px : Column) (py : Row) : Bool :=
  spriteCovers (s.bytesAtIndex n.val) (s.reg x).toNat (s.reg y).toNat px py

theorem State.drawCovers_iff (s : State) (x y : Reg) (n : Fin 16) (px : Column) (py : Row) :
    s.drawCovers x y n px py = true ↔
      ∃ r c : Nat, r < n.val ∧ c < 8 ∧ (s.memRead (s.i.toNat + r)).getLsbD (7 - c) = true ∧
        px.val = ((s.reg x).toNat + c) % 64 ∧ py.val = ((s.reg y).toNat + r) % 32 := by
  rw [State.drawCovers, spriteCovers_iff]
  constructor
  · rintro ⟨r, b, hr, hy, hcov⟩
    rw [State.bytesAtIndex, Memory.loadBytes_getElem?] at hr
    split at hr <;> cases hr
    obtain ⟨c, hc, hbit, hx⟩ := (rowCovers_iff _ _ _).mp hcov
    exact ⟨r, c, ‹_›, hc, hbit, hx, hy⟩
  · rintro ⟨r, c, hr, hc, hbit, hx, hy⟩
    refine ⟨r, s.memRead (s.i.toNat + r), ?_, hy, (rowCovers_iff _ _ _).mpr ⟨c, hc, hbit, hx⟩⟩
    rw [State.bytesAtIndex, Memory.loadBytes_getElem?, if_pos hr]
    rfl

/-- The sprite is a function of `I`, memory and the two coordinates. -/
theorem State.drawCovers_congr {s t : State} {x y : Reg} (hmem : t.mem = s.mem) (hi : t.i = s.i) (hx : t.reg x = s.reg x)
    (hy : t.reg y = s.reg y) (n : Fin 16) : t.drawCovers x y n = s.drawCovers x y n := by
  unfold State.drawCovers State.bytesAtIndex State.indexAddr
  rw [hmem, hi, hx, hy]

/-- Some cell is covered where some row byte is not 0. -/
theorem State.exists_drawCovers_iff (s : State) (x y : Reg) (n : Fin 16) :
    (∃ px py, s.drawCovers x y n px py = true) ↔ ∃ r : Nat, r < n.val ∧ s.memRead (s.i.toNat + r) ≠ 0 := by
  simp only [State.drawCovers_iff]
  constructor
  · rintro ⟨px, py, r, c, hr, -, hbit, -, -⟩
    refine ⟨r, hr, fun hzero => ?_⟩
    simp [hzero] at hbit
  · rintro ⟨r, hr, hne⟩
    obtain ⟨k, hk, hbit⟩ : ∃ k, k < 8 ∧ (s.memRead (s.i.toNat + r)).getLsbD k = true := by
      by_contra! hnone
      exact hne (BitVec.eq_of_getLsbD_eq fun k hk => by simpa using hnone k hk)
    exact ⟨columnOf ((s.reg x).toNat + (7 - k)), rowOf ((s.reg y).toNat + r), r, 7 - k, hr, by omega,
      by rwa [show 7 - (7 - k) = k by omega], rfl, rfl⟩

/-! ### What the draw leaves -/

/-- A draw turns over the cells its sprite covers, and `VF` says whether one of them was lit. -/
theorem exec_drw_cases {x y : Reg} {n : Fin 16} {s t : State} (h : exec (.drw x y n) s = .next t) :
    (∀ px py, t.fb.cell px py = (s.fb.cell px py ^^ s.drawCovers x y n px py)) ∧
    ∃ collided : Bool, t.reg VF = flagByte collided ∧
      (collided = true ↔ ∃ px py, s.drawCovers x y n px py = true ∧ s.fb.cell px py = true) := by
  cases h
  have hlen : (s.bytesAtIndex n.val).length ≤ 32 := by
    rw [State.bytesAtIndex, Memory.loadBytes_length]; omega
  obtain ⟨hcells, hflag⟩ := drawRows_spec (s.bytesAtIndex n.val) (s.reg x).toNat (s.reg y).toNat (s.fb, false) hlen
  exact ⟨hcells, _, State.setReg_reg_self s VF _, by simpa [State.drawCovers] using hflag⟩

theorem exec_drw_regs {x y : Reg} {n : Fin 16} {s t : State} (h : exec (.drw x y n) s = .next t) :
    RegsUnchangedBut [VF] s t := by
  cases h
  exact regsUnchangedBut_setReg_advance s VF _

@[simp] theorem flagByte_true : flagByte true = 1 := rfl
@[simp] theorem flagByte_false : flagByte false = 0 := rfl

end Sys2Proof.Machine
end

section
/-!
The statements of the sprite draw, settled (spec/43_display.md R141).
-/

namespace Sys2Proof.Machine

/-- Settles O26: the covered cells in the rule's numbers. -/
theorem drawTogglesExactlyTheSprite : Obligations.DrawTogglesExactlyTheSprite := by
  intro x y n s covered
  have hcovered (px : Column) (py : Row) : covered px py ↔ s.drawCovers x y n px py = true :=
    (s.drawCovers_iff x y n px py).symm
  obtain ⟨t, h⟩ : ∃ t, exec (.drw x y n) s = .next t := ⟨_, rfl⟩
  obtain ⟨hcells, collided, hvf, hcollided⟩ := exec_drw_cases h
  simp only [hcovered, ← hcollided]
  refine ⟨t, h, fun px py hc => by simp [hcells, hc], fun px py hc => by simp [hcells, hc], fun hc => by simp [hvf, hc],
    fun hc => by simp [hvf, hc], by cases h; rfl, exec_drw_regs h, (exec_onlyChanges h).mono (by simp [writtenParts]),
    fun rnd hdecode => ⟨_, commandStep_of_exec_next hdecode rfl rfl⟩⟩

/-- Settles O27: the second draw covers the same cells, and on a clear display each of them is then lit. -/
theorem drawingTwiceRestoresDisplay : Obligations.DrawingTwiceRestoresDisplay := by
  intro x y n s t u hx hy ht hu
  obtain ⟨hcells, -⟩ := exec_drw_cases ht
  obtain ⟨hcells', collided, hvf, hcollided⟩ := exec_drw_cases hu
  have hsame : t.drawCovers x y n = s.drawCovers x y n :=
    State.drawCovers_congr (exec_mem_eq ht (by simp) (by simp))
      (exec_unchanged (p := .index) ht (by simp [writtenParts])) (exec_drw_regs ht x (by simpa using hx))
      (exec_drw_regs ht y (by simpa using hy)) n
  refine ⟨fun px py => by simp [hcells', hcells, hsame], fun hclear => ?_⟩
  rw [← s.exists_drawCovers_iff x y n]
  have hflag : u.reg VF = 1 ↔ collided = true := by cases collided <;> simp [hvf]
  rw [hflag, hcollided]
  simp [hsame, hcells, hclear]

end Sys2Proof.Machine
end
